-- ==== Sys2Proof/Word.lean ====
section
/-!
DEFINITION. The words of the tclir protocol engine: the 32-bit command word, the 8-bit byte a
decoder command carries, and the 4-bit op field.
-/
namespace Sys2Proof

/-- A 32-bit command word or a 32-bit yielded value (30_encoding.md R71, 10_state.md R35). -/
abbrev Word := BitVec 32

/-- The byte operand of `FIX_RX` and `CONT_RX` (30_encoding.md R75, R76). -/
abbrev Byte := BitVec 8

/-- The op field of a command word, `cmd[31:28]` (30_encoding.md R71). -/
abbrev Op := BitVec 4

end Sys2Proof
end

