-- ==== Sys2Proof/Config.lean ====
section
/-!
DEFINITION. What is fixed when the block is synthesised (00_scope.md section 3), the check that
refuses a bad configuration, the OPEN parameters as constants nothing can be proved a value of, and
the free values for arguments the spec gives no result for.
-/
namespace Sys2Proof

/-- The named phases of the encoder (10_state.md R23), without the unreachable code 7 (R43). -/
inductive Phase where
  | idle | preMark | preGap | bitMark | bitGap | trlMark | trlGap
  deriving DecidableEq, Repr, Inhabited

/-- The parameters the spec leaves OPEN: the six phase durations in ticks (00_scope.md R6), the
number of frames per payload (R7), the width of the remaining-tick counter (R8), and the two labels
no rule reads (R10). -/
structure OpenParams where
  /-- `B`, ticks of the preamble mark -/
  b : Nat
  /-- `BW`, ticks of the preamble gap -/
  bw : Nat
  /-- `H`, ticks of a bit mark and of the trailer mark -/
  h : Nat
  /-- `L0`, ticks of the gap of a 0 bit -/
  l0 : Nat
  /-- `L1`, ticks of the gap of a 1 bit -/
  l1 : Nat
  /-- `E`, ticks of the trailer gap -/
  e : Nat
  /-- `FRAMES` -/
  frames : Nat
  /-- `CNT_W` -/
  cntW : Nat
  /-- `TICK_PERIOD`, a label (log 18) -/
  tickPeriod : String
  /-- `CARRIER_HZ`, a label (log 18) -/
  carrierHz : String
  deriving DecidableEq, Repr

/-- Every implementation parameter of the block (00_scope.md R5 to R10). -/
structure Params extends OpenParams where
  /-- `NBITS`, the payload width (R5) -/
  nbits : Nat
  /-- `FX_MAGIC1` (R9) -/
  fxMagic1 : Byte
  /-- `FX_MAGIC2` (R9) -/
  fxMagic2 : Byte
  /-- `CT_BEGIN_BYTE` (R9) -/
  ctBeginByte : Byte
  /-- `CT_CONFIRM_BYTE` (R9) -/
  ctConfirmByte : Byte
  /-- `CT_END_BYTE` (R9) -/
  ctEndByte : Byte
  deriving DecidableEq, Repr

/-- Why a configuration is refused (00_scope.md R5 to R9; 93_implementation_defined.md U5 to U8, U14). -/
inductive ParamError where
  /-- a duration is 0 (R6) -/
  | zeroDuration
  /-- `L0 < L1` does not hold (R6) -/
  | gapOrder
  /-- `FRAMES` is neither 1 nor 2 (R7) -/
  | frames
  /-- the counter cannot hold the longest duration (R8) -/
  | counterWidth
  /-- `NBITS` is not from 1 to 28 (R5) -/
  | payloadWidth
  /-- a continuation control byte has bit 7 set (R9) -/
  | controlByte
  deriving DecidableEq, Repr

/-- The longest phase, the maximum of 00_scope.md R8. -/
def OpenParams.longest (p : OpenParams) : Nat :=
  max p.b (max p.bw (max p.h (max p.l0 (max p.l1 p.e))))

/-- The first constraint of 00_scope.md R6 to R8 that the OPEN parameters break, if any. -/
def OpenParams.refusal (p : OpenParams) : Option ParamError :=
  if p.b = 0 ∨ p.bw = 0 ∨ p.h = 0 ∨ p.l0 = 0 ∨ p.l1 = 0 ∨ p.e = 0 then some .zeroDuration
  else if ¬ p.l0 < p.l1 then some .gapOrder
  else if ¬ (p.frames = 1 ∨ p.frames = 2) then some .frames
  else if ¬ p.longest ≤ 2 ^ p.cntW - 1 then some .counterWidth
  else none

/-- The first constraint of 00_scope.md R5 to R9 that a configuration breaks, if any. -/
def Params.refusal (p : Params) : Option ParamError :=
  if ¬ (1 ≤ p.nbits ∧ p.nbits ≤ 28) then some .payloadWidth
  else if p.ctBeginByte.msb ∨ p.ctConfirmByte.msb ∨ p.ctEndByte.msb then some .controlByte
  else p.toOpenParams.refusal

/-- A configuration the model accepts. -/
def Params.valid (p : Params) : Bool := p.refusal.isNone

/-- The width of `enc_bit`, `max(1, ceil(log2(NBITS)))` bits (10_state.md R24). -/
def Params.bitWidth (p : Params) : Nat := Nat.log2 (p.nbits - 1) + 1

/-- The parameter set PX of 95_test_vectors.md section 1: an example of the spec's, not this
hardware's values. It shows that the constraints of R6 to R8 can be met together. -/
def Config.exampleOpen : OpenParams :=
  { b := 4, bw := 2, h := 1, l0 := 1, l1 := 2, e := 3, frames := 1, cntW := 3,
    tickPeriod := "", carrierHz := "" }

/-- OPEN parameters together with the proof that they meet their constraints: a choice that breaks
one cannot be built, which is how the model refuses it (00_scope.md R6 to R8). The default values
only show Lean that the type has a member (log 4). -/
structure OpenChoice where
  params : OpenParams := Config.exampleOpen
  accepted : params.refusal = none := by decide
  deriving Inhabited

/-- The OPEN parameters of this hardware: some choice that meets the constraints. The spec gives no
value, and nothing in Lean can prove one (DESIGN CHOICE, log 4). -/
opaque Config.openChoice : OpenChoice

/-- FREE VALUE (DESIGN CHOICE, log 7). What `next` answers for arguments 40_encoder.md R104 has no
clause for: a `BIT_GAP` with a bit index past `NBITS-1`, a `TRL_GAP` with a frame index past
`FRAMES-1`, or `IDLE`. 10_state.md R29 rules these out of every reachable state. -/
opaque Config.unstatedNext : Phase → Nat → Nat → Phase × Nat × Nat

/-- FREE VALUE (DESIGN CHOICE, log 8). What `bitval(i)` is for `i >= NBITS`, where 40_encoder.md R102
gives none; the arguments are the payload and the index. -/
opaque Config.unstatedBit : Nat → Nat → Bool

/-- The configuration of this hardware: `NBITS` = 24 (00_scope.md R5), the byte constants of R9, and
the OPEN parameters as `Config.openChoice` leaves them. -/
@[reducible] def Config.hardware : Params :=
  { toOpenParams := Config.openChoice.params
    nbits := 24
    fxMagic1 := 0x53#8
    fxMagic2 := 0x62#8
    ctBeginByte := 0x53#8
    ctConfirmByte := 0x62#8
    ctEndByte := 0x63#8 }

end Sys2Proof
end

