-- ==== Sys2Proof/Syntax.lean ====
section
/-!
DEFINITION. The five commands of the block, one constructor per row of spec/opcode_table.json
(30_encoding.md R72).
-/
namespace Sys2Proof

/-- A command. Operands are unsigned bit fields, unchanged by decoding (30_encoding.md R78). -/
inductive Instr where
  /-- `NOP` (43_control.md R170) -/
  | nop
  /-- `ENC_SET payload`; the payload has `NBITS` = 24 bits (00_scope.md R5, 40_encoder.md R105) -/
  | encSet (payload : BitVec 24)
  /-- `ENC_TICK` (40_encoder.md R107) -/
  | encTick
  /-- `FIX_RX byte` (41_fixed_decoder.md R131) -/
  | fixRx (byte : Byte)
  /-- `CONT_RX byte` (42_cont_decoder.md R151) -/
  | contRx (byte : Byte)
  deriving DecidableEq, Repr

end Sys2Proof
end

