-- ==== Sys2Proof/WellFormed.lean ====
section
/-!
DEFINITION. What makes a command well formed. The operands of `Instr` are bit vectors of exactly the
widths of 30_encoding.md R73 to R77, so every `Instr` is. A line of the assembler syntax
(30_encoding.md R86) carries plain numbers and can be out of range: `Asm.refusal` names what is wrong.
The check of a configuration stands in Config.lean (`Params.refusal`).
-/
namespace Sys2Proof

/-- The operand of a command fits its field: `P < 2^NBITS`, `B < 256` (30_encoding.md R73, R75, R76,
R86). The operand types already say so. -/
def Instr.wellFormed : Instr → Bool
  | .nop => true
  | .encSet payload => decide (payload.toNat < 2 ^ Config.hardware.nbits)
  | .encTick => true
  | .fixRx byte => decide (byte.toNat < 256)
  | .contRx byte => decide (byte.toNat < 256)

/-- One line of the assembler syntax, pseudo-instructions included (30_encoding.md R86). -/
inductive Asm where
  | nop
  | set (payload : Nat)
  | tick
  | fx (byte : Nat)
  | ct (byte : Nat)
  /-- `tick N` -/
  | tickN (n : Nat)
  /-- `fxmsg V` -/
  | fxmsg (v : Word)
  /-- `ctmsg V` -/
  | ctmsg (v : Word)
  deriving DecidableEq, Repr

/-- Why an assembler line is refused: a bound of 30_encoding.md R86 does not hold. R86 gives the bounds;
that a line outside them is refused is DEDUCED (log 20). -/
inductive AsmError where
  /-- `set P` with `P >= 2^NBITS` -/
  | payloadTooLarge
  /-- `fx B` or `ct B` with `B >= 256` -/
  | byteTooLarge
  /-- `tick N` with `N = 0` -/
  | noTicks
  deriving DecidableEq, Repr

/-- The bound of 30_encoding.md R86 that a line breaks, if any. -/
def Asm.refusal : Asm → Option AsmError
  | .nop => none
  | .set payload => if payload < 2 ^ Config.hardware.nbits then none else some .payloadTooLarge
  | .tick => none
  | .fx byte => if byte < 256 then none else some .byteTooLarge
  | .ct byte => if byte < 256 then none else some .byteTooLarge
  | .tickN n => if 1 ≤ n then none else some .noTicks
  | .fxmsg _ => none
  | .ctmsg _ => none

end Sys2Proof
end

