-- ==== Sys2Proof/Decode.lean ====
section
/-!
DEFINITION. Command words to commands and back (30_encoding.md section 1). The decoder is total on all
2^32 words and says why it rejects one; the encoder writes each command's word from its format.
-/
namespace Sys2Proof

/-- `op = cmd[31:28]` (30_encoding.md R71). -/
def opField (w : Word) : Op := w.extractLsb' 28 4

/-- The operand field `cmd[27:0]` (30_encoding.md R71). -/
def operandField (w : Word) : BitVec 28 := w.extractLsb' 0 28

/-- The bits `cmd[27:n]` are all 0: the reserved bits of a format whose operand is `cmd[n-1:0]`. With
`n = 28` there are none, and the test passes (30_encoding.md R71, R79). -/
def reservedClear (n : Nat) (w : Word) : Bool := operandField w >>> n == 0#28

/-- The op of each command (30_encoding.md R72). -/
def Instr.op : Instr → Op
  | .nop => 0x0#4
  | .encSet _ => 0x1#4
  | .encTick => 0x2#4
  | .fixRx _ => 0x3#4
  | .contRx _ => 0x4#4

/-- Why a word is `ILLEGAL` (30_encoding.md R80). -/
inductive Illegal where
  /-- op 0x5 to 0xF -/
  | reservedOp
  /-- a reserved bit of the op's format is 1 -/
  | reservedBits
  deriving DecidableEq, Repr

/-- The word's command if the reserved bits above its `n` operand bits are 0. -/
def decodeOperand (n : Nat) (w : Word) (i : Instr) : Except Illegal Instr :=
  if reservedClear n w then .ok i else .error .reservedBits

/-- `decode(cmd)` of 30_encoding.md R79, total on all 2^32 words. -/
def decode (w : Word) : Except Illegal Instr :=
  match (opField w).toNat with
  | 0 => decodeOperand 0 w .nop
  | 1 => decodeOperand Config.hardware.nbits w (.encSet (w.extractLsb' 0 24))
  | 2 => decodeOperand 0 w .encTick
  | 3 => decodeOperand 8 w (.fixRx (w.extractLsb' 0 8))
  | 4 => decodeOperand 8 w (.contRx (w.extractLsb' 0 8))
  | _ => .error .reservedOp

/-- The operand field a command's format puts below its op: the operand at bit 0, reserved bits 0
(30_encoding.md R73 to R77). -/
def Instr.operand : Instr → BitVec 28
  | .nop => 0#28
  | .encSet payload => payload.setWidth 28
  | .encTick => 0#28
  | .fixRx byte => byte.setWidth 28
  | .contRx byte => byte.setWidth 28

/-- The word of a command (30_encoding.md R73 to R77, R86). -/
def encode (i : Instr) : Word := i.op ++ i.operand

/-- The command the decoder reads from an instruction whose `nbits` table bits are `w`. Every command
is one 32-bit word (30_encoding.md R81), a parallel word with no byte order (20_memory.md R55); bits
from `nbits` up are 0. -/
def decodeTableWord (nbits w : Nat) : Option Instr :=
  (decode (BitVec.ofNat 32 (w % 2 ^ nbits))).toOption

end Sys2Proof
end

