-- ==== Sys2Proof/Machine/State.lean ====
section
/-!
DEFINITION. The state of the block as plain data (10_state.md), its input and output ports
(60_exceptions.md R189), the reasons a step can stop, and the state right after reset
(10_state.md R42, 70_reset_and_hazards.md R200).
-/
namespace Sys2Proof.Machine

/-- The states of the fixed-width decoder (10_state.md R30), without the unreachable codes 6 and 7. -/
inductive FxState where
  | idle | sawM1 | sawM2 | acc0 | acc1 | acc2
  deriving DecidableEq, Repr

/-- The states of the continuation decoder (10_state.md R32), without the unreachable code 3. -/
inductive CtState where
  | begin | magicSeen | receiving
  deriving DecidableEq, Repr

/-- The encoder's registers (10_state.md section 2), for a configuration `p`. -/
structure Encoder (p : Params) where
  /-- `enc_phase` (R23) -/
  phase : Phase
  /-- `enc_bit` (R24) -/
  bit : BitVec p.bitWidth
  /-- `enc_frame` (R25) -/
  frame : BitVec 1
  /-- `enc_rem` (R26) -/
  rem : BitVec p.cntW
  /-- `enc_payload` (R27) -/
  payload : BitVec p.nbits
  /-- `ir_out` (R28) -/
  irOut : Bool
  deriving DecidableEq, Repr

/-- The fixed-width decoder's registers (10_state.md section 3). -/
structure FixDecoder where
  /-- `fx_state` (R30) -/
  st : FxState
  /-- `fx_acc` (R31) -/
  acc : Word
  deriving DecidableEq, Repr

/-- The continuation decoder's registers (10_state.md section 4). -/
structure ContDecoder where
  /-- `ct_state` (R32) -/
  st : CtState
  /-- `ct_acc` (R33) -/
  acc : Word
  deriving DecidableEq, Repr

/-- The response record on the response ports (10_state.md R35, R36). -/
structure Response where
  /-- `resp_valid` -/
  valid : Bool
  /-- `resp_op` -/
  op : Op
  /-- `resp_level_valid` -/
  levelValid : Bool
  /-- `resp_level` -/
  level : Bool
  /-- `resp_value_valid` -/
  valueValid : Bool
  /-- `resp_value` -/
  value : Word
  /-- `resp_framing_error` -/
  framingError : Bool
  /-- `resp_illegal` -/
  illegal : Bool
  deriving DecidableEq, Repr

/-- What the host drives on the input ports at one rising edge of `clk` (60_exceptions.md R189). -/
structure PortIn where
  /-- `rst` -/
  rst : Bool
  /-- `cmd_valid` -/
  cmdValid : Bool
  /-- `cmd` -/
  cmd : Word
  deriving DecidableEq, Repr

/-- Every output port of the block (60_exceptions.md R189). -/
structure PortOut where
  /-- `ir_out` -/
  irOut : Bool
  /-- `enc_idle` -/
  encIdle : Bool
  /-- the eight response ports -/
  resp : Response
  deriving DecidableEq, Repr

/-- The whole state of the block: the registers of its three units, which share nothing
(10_state.md R22), the response on its ports, and, as the model's own field, what the host will drive
on the input ports at the coming edges, earliest first (log 1). -/
structure State where
  enc : Encoder Config.hardware
  fx : FixDecoder
  ct : ContDecoder
  resp : Response
  inputs : List PortIn
  deriving DecidableEq, Repr

/-- The reasons the machine can stop with a fault: none. The block has no trap, no fatal condition and
no halt, and every command completes in every state (60_exceptions.md R182). Safe: no step can raise
one (log 11). -/
inductive Fault where
  deriving DecidableEq, Repr

/-- The reasons a step can be refused. -/
inductive Refusal where
  /-- Raised by an arm of `exec` whose instruction has no meaning yet. No arm is in that case, so
  nothing raises it. Safe: it would stop the machine. -/
  | notModelled (mnemonic : String)
  deriving DecidableEq, Repr

/-- The encoder's reset values (10_state.md R42). -/
def Encoder.reset (p : Params) : Encoder p :=
  { phase := .idle, bit := 0#_, frame := 0#1, rem := 0#_, payload := 0#_, irOut := false }

/-- The fixed-width decoder's reset values (10_state.md R42). -/
def FixDecoder.reset : FixDecoder := { st := .idle, acc := 0#32 }

/-- The continuation decoder's reset values (10_state.md R42). -/
def ContDecoder.reset : ContDecoder := { st := .begin, acc := 0#32 }

/-- Every response field 0: the response after reset (10_state.md R42), and in a cycle after which no
command was accepted (R36). -/
def Response.silent : Response :=
  { valid := false, op := 0x0#4, levelValid := false, level := false, valueValid := false,
    value := 0#32, framingError := false, illegal := false }

/-- The machine right after reset: every register at its value of 10_state.md R42. The host's inputs
are no register; none are placed (DESIGN CHOICE, log 2). -/
def State.reset : State :=
  { enc := Encoder.reset Config.hardware, fx := FixDecoder.reset, ct := ContDecoder.reset,
    resp := Response.silent, inputs := [] }

end Sys2Proof.Machine
end

