-- ==== Sys2Proof/Machine/Operands.lean ====
section
/-!
DEFINITION. What the decoders read from a byte operand: its class, its 7-bit chunk, and its place in
the 32-bit value (30_encoding.md R78, 41_fixed_decoder.md R133, 42_cont_decoder.md R152, R154).
-/
namespace Sys2Proof.Machine

/-- `zext_32(v)` (00_scope.md R11). -/
def zext32 {n : Nat} (v : BitVec n) : Word := v.setWidth 32

/-- A data byte of the continuation protocol: bit 7 set (42_cont_decoder.md R152). -/
def isDataByte (byte : Byte) : Bool := byte.getLsbD 7

/-- The 7-bit chunk `byte[6:0]` of a data byte (42_cont_decoder.md R154). -/
def chunk (byte : Byte) : BitVec 7 := byte.extractLsb' 0 7

/-- Data byte `k` ORed in at bits `8k+7 : 8k` of the accumulator (41_fixed_decoder.md R133). -/
def placeByte (acc : Word) (k : Nat) (byte : Byte) : Word := acc ||| (zext32 byte <<< (8 * k))

/-- The data fold `(acc << 7) | zext_32(byte & 0x7F)`, in 32 bits (42_cont_decoder.md R154). -/
def foldChunk (acc : Word) (byte : Byte) : Word := (acc <<< 7) ||| zext32 (chunk byte)

end Sys2Proof.Machine
end

