-- ==== Sys2Proof/Machine/Flags.lean ====
section
/-!
DEFINITION. The response record, which holds all the flags the block has (10_state.md R38), and the
response primitives of 00_scope.md R12. A response is computed from its command alone: it starts from
the record in which every field but `resp_valid` and `resp_op` is 0 (10_state.md R37).
-/
namespace Sys2Proof.Machine

/-- The response of an accepted command before any primitive sets a field (10_state.md R35, R37). -/
def Response.accepted (op : Op) : Response := { Response.silent with valid := true, op := op }

/-- `emit_level(l)` (00_scope.md R12). -/
def Response.emitLevel (r : Response) (l : Bool) : Response :=
  { r with levelValid := true, level := l }

/-- `emit_level` where the operation returns a level, nothing where it returns `None`
(00_scope.md R14). -/
def Response.emitLevel? (r : Response) : Option Bool → Response
  | none => r
  | some l => r.emitLevel l

/-- `emit_value(v)` (00_scope.md R12). -/
def Response.emitValue (r : Response) (v : Word) : Response :=
  { r with valueValid := true, value := v }

/-- The two exceptional events of the block (60_exceptions.md R180, R181). -/
inductive Event where
  | framingError
  | illegalCommand
  deriving DecidableEq, Repr

/-- `raise FramingError` and `raise IllegalCommand` (00_scope.md R12): taking an exceptional event.
The block has no trap: the event is a response field, nothing is saved, and there is nothing to return
from (60_exceptions.md R180 to R183). -/
def Response.raise (r : Response) : Event → Response
  | .framingError => { r with framingError := true }
  | .illegalCommand => { r with illegal := true }

/-- What one byte makes a decoder report (00_scope.md R14, 60_exceptions.md R180). -/
inductive RxResult where
  /-- `None` -/
  | quiet
  /-- `Some(value)` -/
  | value (v : Word)
  /-- the byte was a framing error -/
  | framingError
  deriving DecidableEq, Repr

/-- The response fields a decoder's report sets. -/
def Response.report (r : Response) : RxResult → Response
  | .quiet => r
  | .value v => r.emitValue v
  | .framingError => r.raise .framingError

end Sys2Proof.Machine
end

