-- ==== Sys2Proof/Machine/Ops.lean ====
section
/-!
DEFINITION. The operations on the whole state that more than one step shares: the two clock edges at
which no command is accepted, the host's inputs, taking an illegal word, and the output ports.
-/
namespace Sys2Proof.Machine

/-- The whole registers' reset: every register takes its reset value, whatever the state
(70_reset_and_hazards.md R200, 10_state.md R42). The host's coming inputs are the host's and stay. -/
def State.resetEdge (s : State) : State := { State.reset with inputs := s.inputs }

/-- A rising edge at which nothing is offered: no register of a unit changes, and every response field
is 0 in the next cycle (43_control.md R172, 10_state.md R36). -/
def State.idleEdge (s : State) : State := { s with resp := Response.silent }

/-- Accepting a word that decodes as `ILLEGAL`: no register changes, the response carries the word's op
and `resp_illegal` (43_control.md R171, 60_exceptions.md R181). -/
def State.illegalCommand (w : Word) (s : State) : State :=
  { s with resp := (Response.accepted (opField w)).raise .illegalCommand }

/-- The input ports at an edge for which the host has placed nothing: `rst` and `cmd_valid` are 0
(DESIGN CHOICE, log 3). -/
def PortIn.quiet : PortIn := { rst := false, cmdValid := false, cmd := 0#32 }

/-- The host offers a command word. -/
def PortIn.offer (w : Word) : PortIn := { rst := false, cmdValid := true, cmd := w }

/-- The host asserts `rst`. -/
def PortIn.assertReset : PortIn := { rst := true, cmdValid := false, cmd := 0#32 }

/-- What stands on the input ports at the next edge. -/
def State.sample (s : State) : PortIn := s.inputs.headD PortIn.quiet

/-- The state once the edge has consumed that sample. -/
def State.consume (s : State) : State := { s with inputs := s.inputs.tail }

/-- `enc_idle`, 1 exactly when `enc_phase = IDLE` (10_state.md R34). -/
def Encoder.isIdle {p : Params} (e : Encoder p) : Bool := e.phase == .idle

/-- The output ports, driven at all times (10_state.md R34, 60_exceptions.md R189). -/
def State.outputs (s : State) : PortOut :=
  { irOut := s.enc.irOut, encIdle := s.enc.isIdle, resp := s.resp }

end Sys2Proof.Machine
end

