-- ==== Sys2Proof/Machine/ContDecoder.lean ====
section
/-!
DEFINITION. The 7-bit-continuation FrameProtocolDecoder (42_cont_decoder.md) and the meaning of
`CONT_RX`.
-/
namespace Sys2Proof.Machine

/-- `receive(byte)` of the continuation decoder (42_cont_decoder.md R151): the decoder after one byte,
and what it reports. -/
def ContDecoder.receive (p : Params) (byte : Byte) (d : ContDecoder) : ContDecoder × RxResult :=
  match d.st with
  | .begin =>
    if byte = p.ctBeginByte then ({ d with st := .magicSeen }, .quiet) else (d, .framingError)
  | .magicSeen =>
    if byte = p.ctConfirmByte then ({ st := .receiving, acc := 0#32 }, .quiet)
    else ({ d with st := .begin }, .framingError)
  | .receiving =>
    if isDataByte byte then ({ d with acc := foldChunk d.acc byte }, .quiet)
    else if byte = p.ctEndByte then ({ d with st := .begin }, .value d.acc)
    else ({ d with st := .begin }, .framingError)

/-- `CONT_RX byte` (42_cont_decoder.md R151). -/
def execContRx (byte : Byte) (s : State) : Host.Outcome State Fault Refusal :=
  let r := s.ct.receive Config.hardware byte
  .next { s with ct := r.1, resp := (Response.accepted 0x4#4).report r.2 }

end Sys2Proof.Machine
end

