-- ==== Sys2Proof/Machine/Control.lean ====
section
/-!
DEFINITION. The meaning of `NOP` (43_control.md).
-/
namespace Sys2Proof.Machine

/-- `NOP` (43_control.md R170): no register changes; unlike an idle edge it produces a response. -/
def execNop (s : State) : Host.Outcome State Fault Refusal :=
  .next { s with resp := Response.accepted 0x0#4 }

end Sys2Proof.Machine
end

