-- ==== Sys2Proof/Machine/Encoder.lean ====
section
/-!
DEFINITION. The TickProtocolEncoder (40_encoder.md): the phase functions, for any configuration, and
the meanings of `ENC_SET` and `ENC_TICK`.
-/
namespace Sys2Proof.Machine

/-- `level(phase)` (40_encoder.md R100); `IDLE` has no level of its own. -/
def phaseLevel : Phase → Option Bool
  | .idle => none
  | .preMark => some true
  | .preGap => some false
  | .bitMark => some true
  | .bitGap => some false
  | .trlMark => some true
  | .trlGap => some false

/-- `bitval(i) = enc_payload[NBITS-1-i]` for `i < NBITS` (40_encoder.md R102): index 0 is the most
significant payload bit. Past that range the spec gives no bit: a free value (log 8). -/
def bitval {n : Nat} (payload : BitVec n) (i : Nat) : Bool :=
  if i < n then payload.getLsbD (n - 1 - i) else Config.unstatedBit payload.toNat i

/-- `dur(phase, bit)` (40_encoder.md R101). `dur(IDLE, _)` is not used, and nothing here uses it; its
0 is the `enc_rem` of `IDLE` (10_state.md R26; log 19). -/
def phaseDur (p : Params) (payload : BitVec p.nbits) (phase : Phase) (i : Nat) : Nat :=
  match phase with
  | .idle => 0
  | .preMark => p.b
  | .preGap => p.bw
  | .bitMark => p.h
  | .bitGap => if bitval payload i then p.l1 else p.l0
  | .trlMark => p.h
  | .trlGap => p.e

/-- `next(phase, bit, frame)` (40_encoder.md R104). The clauses for phases other than `BIT_MARK` and
`BIT_GAP` do not read the bit index, which means nothing there (10_state.md R24; DEDUCED, log 9).
Where R104 has no clause the answer is a free value (log 7). -/
def nextPhase (p : Params) (phase : Phase) (i f : Nat) : Phase × Nat × Nat :=
  match phase with
  | .idle => Config.unstatedNext .idle i f
  | .preMark => (.preGap, 0, f)
  | .preGap => (.bitMark, 0, f)
  | .bitMark => (.bitGap, i, f)
  | .bitGap =>
    if i + 1 < p.nbits then (.bitMark, i + 1, f)
    else if i + 1 = p.nbits then (.trlMark, 0, f)
    else Config.unstatedNext .bitGap i f
  | .trlMark => (.trlGap, 0, f)
  | .trlGap =>
    if f + 1 < p.frames then (.preMark, 0, f + 1)
    else if f + 1 = p.frames then (.idle, 0, 0)
    else Config.unstatedNext .trlGap i f

/-- The encoder after `ENC_SET payload`, and the level it returns: every register is written, so
nothing of an earlier frame is left (40_encoder.md R105, R106). -/
def Encoder.setValue (p : Params) (payload : BitVec p.nbits) : Encoder p × Bool :=
  ({ phase := .preMark, bit := 0#_, frame := 0#1, rem := BitVec.ofNat _ p.b, payload := payload,
     irOut := true }, true)

/-- Entering a phase: load its duration, apply and return its level; `IDLE` has neither, and entering
it emits nothing (40_encoder.md R107, 92_eei_decisions.md D8). -/
def Encoder.enter (p : Params) (e : Encoder p) (phase : Phase) (i f : Nat) :
    Encoder p × Option Bool :=
  match phaseLevel phase with
  | none =>
    ({ e with phase := phase, bit := BitVec.ofNat _ i, frame := BitVec.ofNat _ f, rem := 0#_ }, none)
  | some l =>
    ({ e with phase := phase, bit := BitVec.ofNat _ i, frame := BitVec.ofNat _ f,
              rem := BitVec.ofNat _ (phaseDur p e.payload phase i), irOut := l }, some l)

/-- The encoder after one tick, and the level it returns if any (40_encoder.md R107). The decrement is
in `CNT_W` bits; a remaining count of 0 outside `IDLE`, which 10_state.md R29 rules out, wraps
(DEDUCED, log 10). -/
def Encoder.tick (p : Params) (e : Encoder p) : Encoder p × Option Bool :=
  if e.phase = .idle then (e, none)
  else if e.rem - 1#_ ≠ 0#_ then ({ e with rem := e.rem - 1#_ }, none)
  else
    let n := nextPhase p e.phase e.bit.toNat e.frame.toNat
    e.enter p n.1 n.2.1 n.2.2

/-- `ENC_SET payload` (40_encoder.md R105). -/
def execEncSet (payload : BitVec 24) (s : State) : Host.Outcome State Fault Refusal :=
  let r := Encoder.setValue Config.hardware payload
  .next { s with enc := r.1, resp := (Response.accepted 0x1#4).emitLevel r.2 }

/-- `ENC_TICK` (40_encoder.md R107). -/
def execEncTick (s : State) : Host.Outcome State Fault Refusal :=
  let r := s.enc.tick Config.hardware
  .next { s with enc := r.1, resp := (Response.accepted 0x2#4).emitLevel? r.2 }

end Sys2Proof.Machine
end

