-- ==== Sys2Proof/Machine/FixDecoder.lean ====
section
/-!
DEFINITION. The fixed-width FrameProtocolDecoder (41_fixed_decoder.md) and the meaning of `FIX_RX`.
-/
namespace Sys2Proof.Machine

/-- `receive(byte)` of the fixed-width decoder (41_fixed_decoder.md R131): the decoder after one byte,
and what it reports. -/
def FixDecoder.receive (p : Params) (byte : Byte) (d : FixDecoder) : FixDecoder × RxResult :=
  match d.st with
  | .idle => if byte = p.fxMagic1 then ({ d with st := .sawM1 }, .quiet) else (d, .quiet)
  | .sawM1 =>
    if byte = p.fxMagic2 then ({ d with st := .sawM2 }, .quiet)
    else ({ d with st := .idle }, .framingError)
  | .sawM2 => ({ st := .acc0, acc := zext32 byte }, .quiet)
  | .acc0 => ({ st := .acc1, acc := placeByte d.acc 1 byte }, .quiet)
  | .acc1 => ({ st := .acc2, acc := placeByte d.acc 2 byte }, .quiet)
  | .acc2 => ({ st := .idle, acc := placeByte d.acc 3 byte }, .value (placeByte d.acc 3 byte))

/-- `FIX_RX byte` (41_fixed_decoder.md R131). -/
def execFixRx (byte : Byte) (s : State) : Host.Outcome State Fault Refusal :=
  let r := s.fx.receive Config.hardware byte
  .next { s with fx := r.1, resp := (Response.accepted 0x3#4).report r.2 }

end Sys2Proof.Machine
end

