-- ==== Sys2Proof/Machine/Dispatch.lean ====
section
/-!
DEFINITION. One arm per command (30_encoding.md R72).
-/
namespace Sys2Proof.Machine

def exec (i : Instr) (s : State) : Host.Outcome State Fault Refusal :=
  match i with
  | .nop => Sys2Proof.Machine.execNop s
  | .encSet payload => Sys2Proof.Machine.execEncSet payload s
  | .encTick => Sys2Proof.Machine.execEncTick s
  | .fixRx byte => Sys2Proof.Machine.execFixRx byte s
  | .contRx byte => Sys2Proof.Machine.execContRx byte s

end Sys2Proof.Machine
end

