-- ==== Sys2Proof/Machine/Port.lean ====
section
/-!
DEFINITION. The command port: what a rising edge of `clk` does with the sample on the input ports
(30_encoding.md R70).
-/
namespace Sys2Proof.Machine

/-- Accepting the word on `cmd`: the command it decodes as is applied, an illegal word is reported.
This is the function `step(cfg, state, cmd)` of 00_scope.md R13; its response is the `resp` of the
state it gives. -/
def accept (w : Word) (s : State) : Host.Outcome State Fault Refusal :=
  match decode w with
  | .ok i => exec i s
  | .error _ => .next (s.illegalCommand w)

/-- One rising edge with the sample `p` on the input ports: reset comes first and a command offered at
that edge is not accepted (70_reset_and_hazards.md R200); then a command, if one is offered
(30_encoding.md R70); else nothing changes and the response goes silent (43_control.md R172). -/
def clockEdge (p : PortIn) (s : State) : Host.Outcome State Fault Refusal :=
  if p.rst then .next s.resetEdge
  else if p.cmdValid then accept p.cmd s
  else .next s.idleEdge

/-- The word the port carries for an instruction whose `nbits` bits are `w`, the bits above them 0. -/
def portWord (nbits w : Nat) : Word := BitVec.ofNat 32 (w % 2 ^ nbits)

/-- `s` with the word `w` offered at the next edge, in place of what the host had placed for it. -/
def State.offerNext (s : State) (w : Word) : State :=
  { s with inputs := PortIn.offer w :: s.inputs.tail }

end Sys2Proof.Machine
end

