-- ==== Sys2Proof/Machine/Step.lean ====
section
/-!
DEFINITION. The machine's step: one rising edge of `clk` (log 1).
-/
namespace Sys2Proof.Machine

/-- One rising edge of `clk` on the sample the host has placed for it. -/
def step (s : State) : Host.Outcome State Fault Refusal := clockEdge s.sample s.consume

/-- `s` with the instruction whose `nbits` table bits are `w` offered on the command port at the next
edge; nothing else changes (log 2). -/
def State.withFetchWord (s : State) (nbits w : Nat) : State := s.offerNext (portWord nbits w)

end Sys2Proof.Machine
end

