-- ==== Sys2Proof/Machine/Assembler.lean ====
section
/-!
DEFINITION. The host's side of the command streams: the byte frames the decoders accept and the
assembler's expansions (30_encoding.md sections 2 and 4). The block performs none of this; it is how
the spec writes command sequences.
-/
namespace Sys2Proof.Machine

/-- The least `k >= 1` with `v < 2^(7k)`, looked for up to `k = 5`, which any 32-bit value meets
(30_encoding.md R84). -/
def chunkCount (v : Word) : Nat :=
  if v.toNat < 2 ^ 7 then 1
  else if v.toNat < 2 ^ 14 then 2
  else if v.toNat < 2 ^ 21 then 3
  else if v.toNat < 2 ^ 28 then 4
  else 5

/-- The data byte `d_i` of `k` chunks, `0x80 | ((V >> (7*(k-i))) & 0x7F)` (30_encoding.md R84). -/
def dataByte (v : Word) (k i : Nat) : Byte :=
  0x80#8 ||| ((v >>> (7 * (k - i))).setWidth 8 &&& 0x7F#8)

/-- The data bytes `d_1 … d_k` of a value (30_encoding.md R84). -/
def dataBytes (v : Word) : List Byte :=
  (List.range (chunkCount v)).map fun j => dataByte v (chunkCount v) (j + 1)

/-- The six bytes of a fixed-width frame (30_encoding.md R82). -/
def fixFrame (p : Params) (b0 b1 b2 b3 : Byte) : List Byte :=
  [p.fxMagic1, p.fxMagic2, b0, b1, b2, b3]

/-- The bytes of a continuation frame with the data bytes `ds` (30_encoding.md R83). -/
def contFrame (p : Params) (ds : List Byte) : List Byte :=
  p.ctBeginByte :: p.ctConfirmByte :: (ds ++ [p.ctEndByte])

/-- The commands a line stands for once its operands are within their bounds, pseudo-instructions
expanded in order (30_encoding.md R86). -/
def asmExpand (a : Asm) : List Instr :=
  match a with
  | .nop => [.nop]
  | .set payload => [.encSet (BitVec.ofNat 24 payload)]
  | .tick => [.encTick]
  | .fx byte => [.fixRx (BitVec.ofNat 8 byte)]
  | .ct byte => [.contRx (BitVec.ofNat 8 byte)]
  | .tickN n => List.replicate n .encTick
  | .fxmsg v =>
    (fixFrame Config.hardware (v.extractLsb' 0 8) (v.extractLsb' 8 8) (v.extractLsb' 16 8)
      (v.extractLsb' 24 8)).map Instr.fixRx
  | .ctmsg v => (contFrame Config.hardware (dataBytes v)).map Instr.contRx

/-- The commands of an assembler line, or why the line is refused (30_encoding.md R86;
the refusal is DEDUCED, log 20). -/
def asmCommands (a : Asm) : Except AsmError (List Instr) :=
  match a.refusal with
  | none => .ok (asmExpand a)
  | some e => .error e

/-- The words of an assembler line, or why the line is refused (30_encoding.md R86; the
refusal is DEDUCED, log 20). -/
def asmWords (a : Asm) : Except AsmError (List Word) := (asmCommands a).map (List.map encode)

end Sys2Proof.Machine
end

