-- ==== Sys2Proof/Machine/Codes.lean ====
section
/-!
DEFINITION. The binary codes of the three state registers (10_state.md R23, R30, R32;
92_eei_decisions.md D31), and what a hardware register that holds an unreachable code acts as
(10_state.md R43). No port shows a code, and no command produces an unreachable one.
-/
namespace Sys2Proof.Machine

/-- `enc_phase` (10_state.md R23). -/
def phaseCode : Phase → BitVec 3
  | .idle => 0#3
  | .preMark => 1#3
  | .preGap => 2#3
  | .bitMark => 3#3
  | .bitGap => 4#3
  | .trlMark => 5#3
  | .trlGap => 6#3

/-- The phase a code names; none for the unreachable code 7 (10_state.md R23). -/
def phaseOfCode (c : BitVec 3) : Option Phase :=
  match c.toNat with
  | 0 => some .idle
  | 1 => some .preMark
  | 2 => some .preGap
  | 3 => some .bitMark
  | 4 => some .bitGap
  | 5 => some .trlMark
  | 6 => some .trlGap
  | _ => none

/-- `fx_state` (10_state.md R30). -/
def fxCode : FxState → BitVec 3
  | .idle => 0#3
  | .sawM1 => 1#3
  | .sawM2 => 2#3
  | .acc0 => 3#3
  | .acc1 => 4#3
  | .acc2 => 5#3

/-- The fixed-width decoder state a code names; none for the unreachable codes 6 and 7
(10_state.md R30). -/
def fxOfCode (c : BitVec 3) : Option FxState :=
  match c.toNat with
  | 0 => some .idle
  | 1 => some .sawM1
  | 2 => some .sawM2
  | 3 => some .acc0
  | 4 => some .acc1
  | 5 => some .acc2
  | _ => none

/-- `ct_state` (10_state.md R32). -/
def ctCode : CtState → BitVec 2
  | .begin => 0#2
  | .magicSeen => 1#2
  | .receiving => 2#2

/-- The continuation decoder state a code names; none for the unreachable code 3 (10_state.md R32). -/
def ctOfCode (c : BitVec 2) : Option CtState :=
  match c.toNat with
  | 0 => some .begin
  | 1 => some .magicSeen
  | 2 => some .receiving
  | _ => none

/-- The encoder whose `enc_phase` register holds the code `c` and whose other registers are those of
`e`: with an unreachable code it acts as if every register of the unit held its reset value
(10_state.md R43). -/
def Encoder.ofCode {p : Params} (c : BitVec 3) (e : Encoder p) : Encoder p :=
  match phaseOfCode c with
  | some ph => { e with phase := ph }
  | none => Encoder.reset p

/-- The same for the fixed-width decoder (10_state.md R43). -/
def FixDecoder.ofCode (c : BitVec 3) (d : FixDecoder) : FixDecoder :=
  match fxOfCode c with
  | some st => { d with st := st }
  | none => FixDecoder.reset

/-- The same for the continuation decoder (10_state.md R43). -/
def ContDecoder.ofCode (c : BitVec 2) (d : ContDecoder) : ContDecoder :=
  match ctOfCode c with
  | some st => { d with st := st }
  | none => ContDecoder.reset

/-- The state of a block whose three state registers hold these codes (10_state.md R43). -/
def State.ofCodes (encCode fxC : BitVec 3) (ctC : BitVec 2) (s : State) : State :=
  { s with enc := s.enc.ofCode encCode, fx := s.fx.ofCode fxC, ct := s.ct.ofCode ctC }

end Sys2Proof.Machine
end

