-- ==== Sys2Proof/Safety.lean ====
section
/-!
DEFINITION. The terms the statements use: the invariants of the spec, sequences of commands and what
they report, the frame layout of 40_encoder.md R103 read independently of the transition function, and
what a host can tell two states apart by.
-/
namespace Sys2Proof.Machine

/-! ### Invariants -/

/-- The encoder invariants (10_state.md R29 a, b, c). -/
def Encoder.Inv (p : Params) (e : Encoder p) : Prop :=
  (e.phase = .idle → e.rem = 0#_ ∧ e.bit = 0#_ ∧ e.frame = 0#1 ∧ e.irOut = false) ∧
  (e.phase ≠ .idle →
    1 ≤ e.rem.toNat ∧ e.rem.toNat ≤ phaseDur p e.payload e.phase e.bit.toNat ∧
    phaseLevel e.phase = some e.irOut ∧ e.frame.toNat < p.frames) ∧
  (e.phase = .bitMark ∨ e.phase = .bitGap → e.bit.toNat < p.nbits) ∧
  (e.phase ≠ .bitMark → e.phase ≠ .bitGap → e.bit = 0#_)

/-- The bits of `fx_acc` above the data bytes received so far are 0 (10_state.md R31). -/
def FixDecoder.Inv (d : FixDecoder) : Prop :=
  (d.st = .acc0 → d.acc.toNat < 2 ^ 8) ∧
  (d.st = .acc1 → d.acc.toNat < 2 ^ 16) ∧
  (d.st = .acc2 → d.acc.toNat < 2 ^ 24)

/-- What every response record on the ports looks like: a cycle without a command shows zeros
(10_state.md R36), a field no primitive sets is 0 (R37), a command raises at most one event and yields
no value beside one (60_exceptions.md R182), and each report comes from a command that can make it. -/
def Response.Inv (r : Response) : Prop :=
  (r.valid = false → r = Response.silent) ∧
  (r.levelValid = false → r.level = false) ∧
  (r.valueValid = false → r.value = 0#32) ∧
  ¬ (r.framingError = true ∧ r.illegal = true) ∧
  ¬ (r.framingError = true ∧ r.valueValid = true) ∧
  ¬ (r.illegal = true ∧ r.valueValid = true) ∧
  (r.levelValid = true → r.op = 0x1#4 ∨ r.op = 0x2#4) ∧
  (r.valueValid = true ∨ r.framingError = true → r.op = 0x3#4 ∨ r.op = 0x4#4)

/-- The invariant of the whole block. -/
def State.Inv (s : State) : Prop :=
  s.enc.Inv Config.hardware ∧ s.fx.Inv ∧ s.resp.Inv

/-! ### Sequences of commands -/

/-- The commands applied in order (20_memory.md R57), stopping at the first that does not complete. -/
def execAll : List Instr → State → Host.Outcome State Fault Refusal
  | [], s => .next s
  | i :: is, s =>
    match exec i s with
    | .next t => execAll is t
    | .fault r => .fault r
    | .refused r => .refused r

/-- The words accepted in order, legal or not. -/
def acceptAll : List Word → State → Host.Outcome State Fault Refusal
  | [], s => .next s
  | w :: ws, s =>
    match accept w s with
    | .next t => acceptAll ws t
    | .fault r => .fault r
    | .refused r => .refused r

/-- The responses of the commands applied in order. -/
def responses : List Instr → State → List Response
  | [], _ => []
  | i :: is, s =>
    match exec i s with
    | .next t => t.resp :: responses is t
    | .fault _ => []
    | .refused _ => []

/-- The value a response yields, if any (00_scope.md R14). -/
def Response.yielded (r : Response) : Option Word := if r.valueValid then some r.value else none

/-- The level a response emits, if any (00_scope.md R14). -/
def Response.emitted (r : Response) : Option Bool := if r.levelValid then some r.level else none

/-- The emissions of a list of responses as pairs of a position and a level: the `tick-number:level`
notation of 95_test_vectors.md S5 when the first response is that of `ENC_SET` and the others are
those of `ENC_TICK`s (40_encoder.md R111). -/
def emissions (rs : List Response) : List (Nat × Bool) :=
  rs.zipIdx.filterMap fun (r, k) => r.emitted.map fun l => (k, l)

/-- The registers of the three units: the state without the response and the host's inputs. -/
def State.registers (s : State) : Encoder Config.hardware × FixDecoder × ContDecoder :=
  (s.enc, s.fx, s.ct)

/-- The three units of the block (00_scope.md R1). -/
inductive BlockUnit where
  | encoder | fixedDecoder | contDecoder
  deriving DecidableEq, Repr

/-- The unit a command is addressed to; `NOP` addresses none (10_state.md R22). -/
def unitOf : Instr → Option BlockUnit
  | .nop => none
  | .encSet _ => some .encoder
  | .encTick => some .encoder
  | .fixRx _ => some .fixedDecoder
  | .contRx _ => some .contDecoder

/-- A word that is neither `NOP` nor illegal (43_control.md R170, R171). -/
def hasEffect (w : Word) : Bool :=
  match decode w with
  | .ok .nop => false
  | .ok (.encSet _) => true
  | .ok .encTick => true
  | .ok (.fixRx _) => true
  | .ok (.contRx _) => true
  | .error _ => false

/-- No `ENC_SET` stands in a sequence of commands. -/
def noEncSet (is : List Instr) : Prop := ∀ payload, Instr.encSet payload ∉ is

/-! ### The frame layout -/

/-- One row of the table of 40_encoder.md R103: a phase, its bit index, its level, its ticks. -/
structure LayoutRow where
  phase : Phase
  bit : Nat
  level : Bool
  ticks : Nat
  deriving DecidableEq, Repr

/-- The rows of one frame, in order (40_encoder.md R103), with the payload read most significant bit
first (20_memory.md R54). -/
def frameLayout (p : Params) (payload : BitVec p.nbits) : List LayoutRow :=
  [⟨.preMark, 0, true, p.b⟩, ⟨.preGap, 0, false, p.bw⟩] ++
  (List.range p.nbits).flatMap (fun i =>
    [⟨.bitMark, i, true, p.h⟩,
     ⟨.bitGap, i, false, if payload.getMsbD i then p.l1 else p.l0⟩]) ++
  [⟨.trlMark, 0, true, p.h⟩, ⟨.trlGap, 0, false, p.e⟩]

/-- What the encoder shows during one tick: phase, bit index, frame index, level. -/
structure TickView where
  phase : Phase
  bit : Nat
  frame : Nat
  level : Bool
  deriving DecidableEq, Repr

/-- The encoder's view of itself during the current tick. -/
def Encoder.view {p : Params} (e : Encoder p) : TickView :=
  ⟨e.phase, e.bit.toNat, e.frame.toNat, e.irOut⟩

/-- The whole transmission tick by tick: every row held for its ticks, the layout sent `FRAMES` times
(40_encoder.md R103). -/
def transmission (p : Params) (payload : BitVec p.nbits) : List TickView :=
  (List.range p.frames).flatMap fun f =>
    (frameLayout p payload).flatMap fun row =>
      List.replicate row.ticks ⟨row.phase, row.bit, f, row.level⟩

/-- The number of 1 bits of a payload (`n1` of 40_encoder.md R109). -/
def onesOf {n : Nat} (payload : BitVec n) : Nat := (List.range n).countP fun i => payload.getLsbD i

/-- `T_frame` (40_encoder.md R109). -/
def frameTicks (p : Params) (payload : BitVec p.nbits) : Nat :=
  p.b + p.bw + p.nbits * p.h + (p.nbits - onesOf payload) * p.l0 + onesOf payload * p.l1 + p.h + p.e

/-- The tick numbers between which the `i`-th bit gap of frame `f` runs, read off the emissions: the
emission that begins it and the one that ends it (40_encoder.md R111). A frame has `2·NBITS + 4`
phases, each with one emission, and the `i`-th `BIT_GAP` is number `2i + 3` of them, counted from 0. -/
def gapTicks (nbits : Nat) (es : List (Nat × Bool)) (f i : Nat) : Option (Nat × Nat) :=
  match es[(2 * nbits + 4) * f + 2 * i + 3]?, es[(2 * nbits + 4) * f + 2 * i + 4]? with
  | some (t0, _), some (t1, _) => some (t0, t1)
  | _, _ => none

/-! ### What a host can see -/

/-- Two states that agree on everything a later output can depend on: they may differ in an
accumulator outside the states where it means something (10_state.md R31, R33;
93_implementation_defined.md U1) and in the idle encoder's registers other than `enc_phase` and
`ir_out`. -/
def State.SameVisible (s t : State) : Prop :=
  s.resp = t.resp ∧ s.inputs = t.inputs ∧
  s.enc.phase = t.enc.phase ∧ s.enc.irOut = t.enc.irOut ∧
  (s.enc.phase ≠ .idle → s.enc = t.enc) ∧
  s.fx.st = t.fx.st ∧
  (s.fx.st = .acc0 ∨ s.fx.st = .acc1 ∨ s.fx.st = .acc2 → s.fx.acc = t.fx.acc) ∧
  s.ct.st = t.ct.st ∧
  (s.ct.st = .receiving → s.ct.acc = t.ct.acc)

end Sys2Proof.Machine
end

