-- ==== Sys2Proof/Certificates/Slice0/Obligations.lean ====
section
/-!
DEFINITION. The statements for the provers, each one formalising rules of spec/.
Responses are written out as the eight fields of 10_state.md R35, in its order: valid, op, level_valid,
level, value_valid, value, framing_error, illegal.
-/

open Sys2Proof Sys2Proof.Machine

/-! ### Reset, clock edges, the command port -/

/-- 10_state.md R42: the reset value of every register and of every response field. -/
def Obligations.ResetValuesOfEveryRegister : Prop :=
  State.reset.enc = ⟨.idle, 0#_, 0#1, 0#_, 0#_, false⟩ ∧
  State.reset.fx = ⟨.idle, 0#32⟩ ∧
  State.reset.ct = ⟨.begin, 0#32⟩ ∧
  State.reset.resp = ⟨false, 0x0#4, false, false, false, 0#32, false, false⟩

/-- 70_reset_and_hazards.md R200: from any state, one or more edges with `rst = 1`, whatever stands on
`cmd_valid` and `cmd`, give every register its reset value, a silent response, `ir_out = 0` and
`enc_idle = 1`; the host's later inputs are kept. -/
def Obligations.ResetEdgesGiveResetState : Prop :=
  ∀ (s : State) (ps rest : List PortIn), ps ≠ [] → (∀ p ∈ ps, p.rst = true) →
    s.inputs = ps ++ rest →
    Sys2Proof.core.run ps.length s = .next { State.reset with inputs := rest } ∧
    ({ State.reset with inputs := rest } : State).outputs =
      ⟨false, true, ⟨false, 0x0#4, false, false, false, 0#32, false, false⟩⟩

/-- 10_state.md R36, 43_control.md R172, 60_exceptions.md R192: edges with `rst = 0` and
`cmd_valid = 0`, however many, leave every unit as it was, and every response field is 0 from the
first of them on. That such an edge is a step of the model is the model's own choice (log 1). -/
def Obligations.IdleEdgesHoldRegistersAndSilenceResponse : Prop :=
  ∀ (s : State) (ps rest : List PortIn), ps ≠ [] →
    (∀ p ∈ ps, p.rst = false ∧ p.cmdValid = false) → s.inputs = ps ++ rest →
    Sys2Proof.core.run ps.length s =
      .next { s with resp := ⟨false, 0x0#4, false, false, false, 0#32, false, false⟩, inputs := rest }

/-- 30_encoding.md R70: the word offered at an edge with `rst = 0` is decoded and its command applied;
the edge consumes the host's sample and does nothing else. -/
def Obligations.StepRunsTheDecodedCommand : Prop :=
  ∀ (s : State) (w : Word) (rest : List PortIn) (i : Instr),
    s.inputs = ⟨false, true, w⟩ :: rest → decode w = .ok i → i.wellFormed = true →
    step s = exec i { s with inputs := rest }

/-- 43_control.md R171: an illegal word changes no register and is reported with its op. -/
def Obligations.IllegalWordOnlyReported : Prop :=
  ∀ (s : State) (w : Word) (rest : List PortIn) (e : Illegal),
    s.inputs = ⟨false, true, w⟩ :: rest → decode w = .error e →
    step s = .next { s with
      resp := ⟨true, w.extractLsb' 28 4, false, false, false, 0#32, false, true⟩, inputs := rest }

/-- 30_encoding.md R70, 70_reset_and_hazards.md R205: commands offered at consecutive edges are all
accepted, in order, each seeing the whole effect of the one before. -/
def Obligations.BackToBackCommandsAllRun : Prop :=
  ∀ (is : List Instr) (s : State) (rest : List PortIn),
    s.inputs = is.map (fun i => ⟨false, true, encode i⟩) ++ rest →
    Sys2Proof.core.run is.length s = execAll is { s with inputs := rest }

/-- 60_exceptions.md R182: every step completes, from every state and for any number of steps. -/
def Obligations.EveryRunCompletes : Prop :=
  ∀ (n : Nat) (s : State), ∃ t, Sys2Proof.core.run n s = .next t

/-- 10_state.md R34: the two level outputs and the response ports. -/
def Obligations.OutputPortsShowLevelAndIdle : Prop :=
  ∀ s : State, s.outputs.irOut = s.enc.irOut ∧
    (s.outputs.encIdle = true ↔ s.enc.phase = .idle) ∧ s.outputs.resp = s.resp

/-! ### Encoding -/

/-- 30_encoding.md R73 to R77: a few words written out from the formats decode as their commands. -/
def Obligations.SampleWordsDecode : Prop :=
  decode 0x00000000#32 = .ok .nop ∧ decode 0x10ABCDEF#32 = .ok (.encSet 0xABCDEF#24) ∧
  decode 0x20000000#32 = .ok .encTick ∧ decode 0x300000FF#32 = .ok (.fixRx 0xFF#8) ∧
  decode 0x40000053#32 = .ok (.contRx 0x53#8) ∧
  decode 0x11000000#32 = .error .reservedBits ∧ decode 0x50000000#32 = .error .reservedOp

/-- 30_encoding.md R72, R79: the masks, matches and operand fields of the opcode table say exactly
which words decode as which command. -/
def Obligations.DecodeMatchesOpcodeTable : Prop :=
  ∀ w : Word,
    (decode w = .ok .nop ↔ w &&& 0xFFFFFFFF#32 = 0x00000000#32) ∧
    (∀ p, decode w = .ok (.encSet p) ↔
      w &&& 0xFF000000#32 = 0x10000000#32 ∧ p.setWidth 32 = w &&& 0x00FFFFFF#32) ∧
    (decode w = .ok .encTick ↔ w &&& 0xFFFFFFFF#32 = 0x20000000#32) ∧
    (∀ b, decode w = .ok (.fixRx b) ↔
      w &&& 0xFFFFFF00#32 = 0x30000000#32 ∧ b.setWidth 32 = w &&& 0x000000FF#32) ∧
    (∀ b, decode w = .ok (.contRx b) ↔
      w &&& 0xFFFFFF00#32 = 0x40000000#32 ∧ b.setWidth 32 = w &&& 0x000000FF#32)

/-- 30_encoding.md R80: a word is illegal exactly when its op is 0x5 to 0xF or a reserved bit of its
op's format is 1. -/
def Obligations.IllegalWordsExactly : Prop :=
  ∀ w : Word, (∃ e, decode w = .error e) ↔
    5 ≤ w.toNat / 2 ^ 28 ∨
    (w.toNat / 2 ^ 28 = 0 ∧ w.toNat % 2 ^ 28 ≠ 0) ∨
    (w.toNat / 2 ^ 28 = 1 ∧ w.toNat % 2 ^ 28 / 2 ^ 24 ≠ 0) ∨
    (w.toNat / 2 ^ 28 = 2 ∧ w.toNat % 2 ^ 28 ≠ 0) ∨
    (w.toNat / 2 ^ 28 = 3 ∧ w.toNat % 2 ^ 28 / 2 ^ 8 ≠ 0) ∨
    (w.toNat / 2 ^ 28 = 4 ∧ w.toNat % 2 ^ 28 / 2 ^ 8 ≠ 0)

/-- Every command, with every operand, decodes from its own word. -/
def Obligations.DecodeOfEncodeIsIdentity : Prop :=
  ∀ i : Instr, i.wellFormed = true → decode (encode i) = .ok i

/-- Every word that decodes is the word of the command it decodes as, and that command is well
formed: no bit of a legal word is dropped. -/
def Obligations.EncodeOfDecodeIsIdentity : Prop :=
  ∀ (w : Word) (i : Instr), decode w = .ok i → encode i = w ∧ i.wellFormed = true

/-- 30_encoding.md R86: the words of the lines of one command and of `tick N`, for operands within the
bounds R86 gives. R86 does not say what becomes of a line outside them: that it is refused, by the
bound's name, is the model's choice (log 20). -/
def Obligations.AssemblerLinesGiveTheirWords : Prop :=
  asmWords .nop = .ok [0x00000000#32] ∧ asmWords .tick = .ok [0x20000000#32] ∧
  (∀ p, asmWords (.set p) =
    if p < 2 ^ 24 then .ok [0x10000000#32 ||| BitVec.ofNat 32 p] else .error .payloadTooLarge) ∧
  (∀ b, asmWords (.fx b) =
    if b < 256 then .ok [0x30000000#32 ||| BitVec.ofNat 32 b] else .error .byteTooLarge) ∧
  (∀ b, asmWords (.ct b) =
    if b < 256 then .ok [0x40000000#32 ||| BitVec.ofNat 32 b] else .error .byteTooLarge) ∧
  (∀ n, asmWords (.tickN n) =
    if 1 ≤ n then .ok (List.replicate n 0x20000000#32) else .error .noTicks)

/-- 30_encoding.md R84: `chunkCount` is the least `k >= 1` with `V < 2^(7k)`, it is at most 5, and the
data bytes carry the chunks `(V >> 7(k-i)) & 0x7F` with bit 7 set. -/
def Obligations.ChunkingIsTheLeastAndCarriesTheChunks : Prop :=
  ∀ v : Word,
    1 ≤ chunkCount v ∧ chunkCount v ≤ 5 ∧ v.toNat < 2 ^ (7 * chunkCount v) ∧
    (∀ k, 1 ≤ k → v.toNat < 2 ^ (7 * k) → chunkCount v ≤ k) ∧
    (dataBytes v).length = chunkCount v ∧
    (∀ i, 1 ≤ i → i ≤ chunkCount v → ∃ d : Byte, (dataBytes v)[i - 1]? = some d ∧
      d.toNat = 128 + v.toNat / 2 ^ (7 * (chunkCount v - i)) % 128)

/-! ### NOP and the encoder's commands -/

/-- 43_control.md R170. -/
def Obligations.NopOnlyResponds : Prop :=
  ∀ s : State, exec .nop s =
    .next { s with resp := ⟨true, 0x0#4, false, false, false, 0#32, false, false⟩ }

/-- 40_encoder.md R105, in every state. -/
def Obligations.EncSetStartsTheFrame : Prop :=
  ∀ (s : State) (payload : BitVec 24), exec (.encSet payload) s =
    .next { s with
      enc := ⟨.preMark, 0#_, 0#1, BitVec.ofNat _ Config.hardware.b, payload, true⟩
      resp := ⟨true, 0x1#4, true, true, false, 0#32, false, false⟩ }

/-- 40_encoder.md R106: after `ENC_SET`, whatever the state before, the encoder and every later
response to encoder commands are those of the same commands from reset. -/
def Obligations.PreemptionLeavesNothingOfTheOldFrame : Prop :=
  ∀ (s : State) (payload : BitVec 24) (is : List Instr),
    (∀ i ∈ is, unitOf i = some .encoder) →
    responses (.encSet payload :: is) s = responses (.encSet payload :: is) State.reset ∧
    ∃ t u, execAll (.encSet payload :: is) s = .next t ∧
      execAll (.encSet payload :: is) State.reset = .next u ∧ t.enc = u.enc

/-- 40_encoder.md R107, in `IDLE`: nothing changes and nothing is emitted. -/
def Obligations.EncTickInIdleOnlyResponds : Prop :=
  ∀ s : State, s.enc.phase = .idle → exec .encTick s =
    .next { s with resp := ⟨true, 0x2#4, false, false, false, 0#32, false, false⟩ }

/-- 40_encoder.md R107, the phase not exhausted: the remaining count goes down by one and no level is
emitted. -/
def Obligations.EncTickCountsDown : Prop :=
  ∀ s : State, s.enc.phase ≠ .idle → 2 ≤ s.enc.rem.toNat →
    ∃ rem : BitVec Config.hardware.cntW, rem.toNat = s.enc.rem.toNat - 1 ∧
      exec .encTick s =
        .next { s with
          enc := { s.enc with rem := rem }
          resp := ⟨true, 0x2#4, false, false, false, 0#32, false, false⟩ }

/-- 40_encoder.md R104, R107, the phase exhausted: the next phase is entered with its duration (R101)
and its level (R100), which is emitted; `IDLE` is entered with none. The bit and frame indices are
read where the phase reads them and lie in the ranges of 10_state.md R29. -/
def Obligations.EncTickEntersTheNextPhase : Prop :=
  ∀ s : State, s.enc.rem = 1#_ →
    (s.enc.phase = .preMark → s.enc.bit = 0#_ → exec .encTick s = .next { s with
      enc := ⟨.preGap, 0#_, s.enc.frame, BitVec.ofNat _ Config.hardware.bw, s.enc.payload, false⟩
      resp := ⟨true, 0x2#4, true, false, false, 0#32, false, false⟩ }) ∧
    (s.enc.phase = .preGap → s.enc.bit = 0#_ → exec .encTick s = .next { s with
      enc := ⟨.bitMark, 0#_, s.enc.frame, BitVec.ofNat _ Config.hardware.h, s.enc.payload, true⟩
      resp := ⟨true, 0x2#4, true, true, false, 0#32, false, false⟩ }) ∧
    (s.enc.phase = .bitMark → s.enc.bit.toNat < 24 → exec .encTick s = .next { s with
      enc := ⟨.bitGap, s.enc.bit, s.enc.frame,
        BitVec.ofNat _ (if s.enc.payload.getLsbD (23 - s.enc.bit.toNat) then Config.hardware.l1
          else Config.hardware.l0), s.enc.payload, false⟩
      resp := ⟨true, 0x2#4, true, false, false, 0#32, false, false⟩ }) ∧
    (s.enc.phase = .bitGap → s.enc.bit.toNat < 23 → exec .encTick s = .next { s with
      enc := ⟨.bitMark, s.enc.bit + 1#_, s.enc.frame, BitVec.ofNat _ Config.hardware.h,
        s.enc.payload, true⟩
      resp := ⟨true, 0x2#4, true, true, false, 0#32, false, false⟩ }) ∧
    (s.enc.phase = .bitGap → s.enc.bit.toNat = 23 → exec .encTick s = .next { s with
      enc := ⟨.trlMark, 0#_, s.enc.frame, BitVec.ofNat _ Config.hardware.h, s.enc.payload, true⟩
      resp := ⟨true, 0x2#4, true, true, false, 0#32, false, false⟩ }) ∧
    (s.enc.phase = .trlMark → s.enc.bit = 0#_ → exec .encTick s = .next { s with
      enc := ⟨.trlGap, 0#_, s.enc.frame, BitVec.ofNat _ Config.hardware.e, s.enc.payload, false⟩
      resp := ⟨true, 0x2#4, true, false, false, 0#32, false, false⟩ }) ∧
    (s.enc.phase = .trlGap → s.enc.bit = 0#_ → s.enc.frame.toNat < Config.hardware.frames →
      exec .encTick s = .next
      (if s.enc.frame.toNat + 1 < Config.hardware.frames then { s with
        enc := ⟨.preMark, 0#_, s.enc.frame + 1#1, BitVec.ofNat _ Config.hardware.b,
          s.enc.payload, true⟩
        resp := ⟨true, 0x2#4, true, true, false, 0#32, false, false⟩ }
      else { s with
        enc := ⟨.idle, 0#_, 0#1, 0#_, s.enc.payload, s.enc.irOut⟩
        resp := ⟨true, 0x2#4, false, false, false, 0#32, false, false⟩ }))

/-- 40_encoder.md R108: with `n` ticks remaining the encoder holds its phase and level, emitting
nothing, for `n - 1` ticks, and the `n`-th tick leaves the phase for the one R104 names. -/
def Obligations.PhaseHoldsForExactlyItsTicks : Prop :=
  ∀ s : State, s.enc.Inv Config.hardware → s.enc.phase ≠ .idle →
    (∀ k < s.enc.rem.toNat,
      (responses (List.replicate k .encTick) s).filterMap Response.emitted = [] ∧
      ∃ t, execAll (List.replicate k .encTick) s = .next t ∧ t.enc.view = s.enc.view ∧
        t.enc.rem.toNat = s.enc.rem.toNat - k) ∧
    ∃ t, execAll (List.replicate s.enc.rem.toNat .encTick) s = .next t ∧
      (t.enc.phase, t.enc.bit.toNat, t.enc.frame.toNat) =
        nextPhase Config.hardware s.enc.phase s.enc.bit.toNat s.enc.frame.toNat ∧
      t.enc.phase ≠ s.enc.phase

/-- 40_encoder.md R103: after `ENC_SET` and `k` ticks, with any other commands but `ENC_SET` between,
the encoder shows the `k`-th tick of the table of R103, sent `FRAMES` times, and is in `IDLE` when the
table is at its end. -/
def Obligations.TransmissionFollowsTheFrameLayout : Prop :=
  ∀ (s : State) (payload : BitVec 24) (is : List Instr), noEncSet is →
    ∃ t, execAll (.encSet payload :: is) s = .next t ∧ t.enc.payload = payload ∧
      (transmission Config.hardware payload)[is.count .encTick]? =
        if t.enc.phase = .idle then none else some t.enc.view

/-- 40_encoder.md R109: the `T_frame·FRAMES`-th tick from `ENC_SET` is the one that enters `IDLE`, and
every earlier one finds the encoder busy. -/
def Obligations.FrameLengthIsTFrameTimesFrames : Prop :=
  ∀ (s : State) (payload : BitVec 24) (is : List Instr), noEncSet is →
    is.count .encTick ≤ frameTicks Config.hardware payload * Config.hardware.frames →
    ∃ t, execAll (.encSet payload :: is) s = .next t ∧
      (t.enc.phase = .idle ↔
        is.count .encTick = frameTicks Config.hardware payload * Config.hardware.frames)

/-- 40_encoder.md R110: from `ENC_SET` to `IDLE` the levels emitted are `(2·NBITS + 4)·FRAMES` with the
one of `ENC_SET`, alternating 1, 0, 1, … and ending with 0. -/
def Obligations.LevelsEmittedAlternate : Prop :=
  ∀ (s : State) (payload : BitVec 24) (is : List Instr), noEncSet is →
    is.count .encTick = frameTicks Config.hardware payload * Config.hardware.frames →
    (responses (.encSet payload :: is) s).filterMap Response.emitted =
      (List.range ((2 * 24 + 4) * Config.hardware.frames)).map (fun k => k % 2 == 0)

/-- 40_encoder.md R111: in every frame the `i`-th bit gap, from the tick of the emission that begins it
to that of the emission that ends it, lasts `L1` or `L0` ticks by the `i`-th payload bit from the most
significant one, and the two lengths differ: the payload can be read back. -/
def Obligations.BitGapsGiveBackThePayload : Prop :=
  ∀ (s : State) (payload : BitVec 24) (f i : Nat), f < Config.hardware.frames → i < 24 →
    ∃ t0 t1,
      gapTicks 24 (emissions (responses (.encSet payload :: List.replicate
        (frameTicks Config.hardware payload * Config.hardware.frames) .encTick) s)) f i =
          some (t0, t1) ∧
      t1 = t0 + (if payload.getMsbD i then Config.hardware.l1 else Config.hardware.l0) ∧
      (payload.getMsbD i = true ↔ t1 - t0 = Config.hardware.l1)

/-- 10_state.md R29: the encoder invariants hold after reset, and every step, whatever stands on the
input ports, keeps them. -/
def Obligations.EveryStepKeepsTheEncoderInvariants : Prop :=
  State.reset.enc.Inv Config.hardware ∧
  ∀ s t : State, s.enc.Inv Config.hardware → step s = .next t → t.enc.Inv Config.hardware

/-- 10_state.md R28: without a reset, `ir_out` becomes the level emitted, and holds its value when none
is. -/
def Obligations.OutputLevelFollowsEmissions : Prop :=
  ∀ s t : State, s.sample.rst = false → step s = .next t →
    t.enc.irOut = if t.resp.levelValid then t.resp.level else s.enc.irOut

/-- 10_state.md R27: without a reset, `enc_payload` changes only at an `ENC_SET`, to its payload. -/
def Obligations.PayloadWrittenOnlyByEncSet : Prop :=
  ∀ s t : State, s.sample.rst = false → step s = .next t → t.enc.payload ≠ s.enc.payload →
    s.sample.cmdValid = true ∧ decode s.sample.cmd = .ok (.encSet t.enc.payload)

/-! ### The fixed-width decoder -/

/-- 41_fixed_decoder.md R130, row by row, with the byte constants of 00_scope.md R9. -/
def Obligations.FixRxFollowsItsTable : Prop :=
  ∀ (s : State) (b : Byte),
    (s.fx.st = .idle → exec (.fixRx b) s = .next
      (if b = 0x53#8 then
        { s with
          fx := ⟨.sawM1, s.fx.acc⟩
          resp := ⟨true, 0x3#4, false, false, false, 0#32, false, false⟩ }
      else { s with resp := ⟨true, 0x3#4, false, false, false, 0#32, false, false⟩ })) ∧
    (s.fx.st = .sawM1 → exec (.fixRx b) s = .next
      (if b = 0x62#8 then
        { s with
          fx := ⟨.sawM2, s.fx.acc⟩
          resp := ⟨true, 0x3#4, false, false, false, 0#32, false, false⟩ }
      else
        { s with
          fx := ⟨.idle, s.fx.acc⟩
          resp := ⟨true, 0x3#4, false, false, false, 0#32, true, false⟩ })) ∧
    (s.fx.st = .sawM2 → exec (.fixRx b) s = .next
      { s with
        fx := ⟨.acc0, b.setWidth 32⟩
        resp := ⟨true, 0x3#4, false, false, false, 0#32, false, false⟩ }) ∧
    (s.fx.st = .acc0 → exec (.fixRx b) s = .next
      { s with
        fx := ⟨.acc1, s.fx.acc ||| b.setWidth 32 <<< 8⟩
        resp := ⟨true, 0x3#4, false, false, false, 0#32, false, false⟩ }) ∧
    (s.fx.st = .acc1 → exec (.fixRx b) s = .next
      { s with
        fx := ⟨.acc2, s.fx.acc ||| b.setWidth 32 <<< 16⟩
        resp := ⟨true, 0x3#4, false, false, false, 0#32, false, false⟩ }) ∧
    (s.fx.st = .acc2 → exec (.fixRx b) s = .next
      { s with
        fx := ⟨.idle, s.fx.acc ||| b.setWidth 32 <<< 24⟩
        resp := ⟨true, 0x3#4, false, false, true, s.fx.acc ||| b.setWidth 32 <<< 24, false, false⟩ })

/-- 41_fixed_decoder.md R134: the six bytes of a frame, from `FX_IDLE`, yield exactly one value, on the
sixth, and it is the little-endian value of the data bytes; the decoder ends in `FX_IDLE`. -/
def Obligations.FixedFrameRoundTrip : Prop :=
  ∀ (s : State) (b0 b1 b2 b3 : Byte), s.fx.st = .idle →
    ∃ (t : State) (v : Word),
      execAll ((fixFrame Config.hardware b0 b1 b2 b3).map Instr.fixRx) s = .next t ∧
      t.fx.st = .idle ∧
      (responses ((fixFrame Config.hardware b0 b1 b2 b3).map Instr.fixRx) s).map Response.yielded =
        [none, none, none, none, none, some v] ∧
      v.toNat = b0.toNat + 256 * b1.toNat + 65536 * b2.toNat + 16777216 * b3.toNat

/-- 30_encoding.md R82, R86: `fxmsg V`, from `FX_IDLE`, yields `V` on its last byte and nothing before. -/
def Obligations.FxmsgYieldsItsValue : Prop :=
  ∀ (s : State) (v : Word), s.fx.st = .idle →
    ∃ is t, asmCommands (.fxmsg v) = .ok is ∧ execAll is s = .next t ∧ t.fx.st = .idle ∧
      (responses is s).map Response.yielded = [none, none, none, none, none, some v]

/-- 10_state.md R31: every step keeps the bits of `fx_acc` above the data bytes received at 0. -/
def Obligations.EveryStepKeepsTheFixedAccumulatorBound : Prop :=
  ∀ s t : State, s.fx.Inv → step s = .next t → t.fx.Inv

/-! ### The continuation decoder -/

/-- 42_cont_decoder.md R150, row by row, with the byte constants of 00_scope.md R9. -/
def Obligations.ContRxFollowsItsTable : Prop :=
  ∀ (s : State) (b : Byte),
    (s.ct.st = .begin → exec (.contRx b) s = .next
      (if b = 0x53#8 then
        { s with
          ct := ⟨.magicSeen, s.ct.acc⟩
          resp := ⟨true, 0x4#4, false, false, false, 0#32, false, false⟩ }
      else { s with resp := ⟨true, 0x4#4, false, false, false, 0#32, true, false⟩ })) ∧
    (s.ct.st = .magicSeen → exec (.contRx b) s = .next
      (if b = 0x62#8 then
        { s with
          ct := ⟨.receiving, 0#32⟩
          resp := ⟨true, 0x4#4, false, false, false, 0#32, false, false⟩ }
      else
        { s with
          ct := ⟨.begin, s.ct.acc⟩
          resp := ⟨true, 0x4#4, false, false, false, 0#32, true, false⟩ })) ∧
    (s.ct.st = .receiving → exec (.contRx b) s = .next
      (if 128 ≤ b.toNat then
        { s with
          ct := ⟨.receiving, s.ct.acc <<< 7 ||| (b &&& 0x7F#8).setWidth 32⟩
          resp := ⟨true, 0x4#4, false, false, false, 0#32, false, false⟩ }
      else if b = 0x63#8 then
        { s with
          ct := ⟨.begin, s.ct.acc⟩
          resp := ⟨true, 0x4#4, false, false, true, s.ct.acc, false, false⟩ }
      else
        { s with
          ct := ⟨.begin, s.ct.acc⟩
          resp := ⟨true, 0x4#4, false, false, false, 0#32, true, false⟩ }))

/-- 42_cont_decoder.md R154: data bytes in `CT_RECEIVING` leave the low 32 bits of the value so far
followed by all their chunks, most significant first, however many there are. -/
def Obligations.DataBytesConcatenateModulo32Bits : Prop :=
  ∀ (s : State) (ds : List Byte), s.ct.st = .receiving → (∀ d ∈ ds, 128 ≤ d.toNat) →
    ∃ t, execAll (ds.map Instr.contRx) s = .next t ∧ t.ct.st = .receiving ∧
      t.ct.acc.toNat =
        ds.foldl (fun n d => n * 128 + d.toNat % 128) s.ct.acc.toNat % 2 ^ 32

/-- 42_cont_decoder.md R157: every 32-bit value `V`, sent as `ctmsg V` from `CT_BEGIN`, is yielded on the
last byte and nowhere else, and the decoder ends in `CT_BEGIN`. -/
def Obligations.ContinuationFrameRoundTrip : Prop :=
  ∀ (s : State) (v : Word), s.ct.st = .begin →
    ∃ is t, asmCommands (.ctmsg v) = .ok is ∧ execAll is s = .next t ∧ t.ct.st = .begin ∧
      ∃ n, (responses is s).map Response.yielded = List.replicate n none ++ [some v]

/-- 42_cont_decoder.md R159: from any state, whatever commands to the other units stand between them,
`CT_END_BYTE`, `CT_BEGIN_BYTE`, `CT_CONFIRM_BYTE` leave the decoder receiving with a clear
accumulator. -/
def Obligations.ThreeBytesResynchroniseTheContinuationDecoder : Prop :=
  ∀ (s : State) (is0 is1 is2 : List Instr),
    (∀ i ∈ is0 ++ is1 ++ is2, unitOf i ≠ some .contDecoder) →
    ∃ t, execAll (is0 ++ [.contRx Config.hardware.ctEndByte] ++ is1 ++
        [.contRx Config.hardware.ctBeginByte] ++ is2 ++
        [.contRx Config.hardware.ctConfirmByte]) s = .next t ∧
      t.ct = ⟨.receiving, 0#32⟩

/-! ### The whole block -/

/-- 60_exceptions.md R180: exactly which commands report a framing error, and that the decoder is then
back in its initial state. -/
def Obligations.FramingErrorsExactlyAndRecovered : Prop :=
  ∀ s t : State,
    (∀ b, exec (.fixRx b) s = .next t →
      (t.resp.framingError = true ↔ s.fx.st = .sawM1 ∧ b ≠ Config.hardware.fxMagic2) ∧
      (t.resp.framingError = true → t.fx.st = .idle)) ∧
    (∀ b, exec (.contRx b) s = .next t →
      (t.resp.framingError = true ↔
        (s.ct.st = .begin ∧ b ≠ Config.hardware.ctBeginByte) ∨
        (s.ct.st = .magicSeen ∧ b ≠ Config.hardware.ctConfirmByte) ∨
        (s.ct.st = .receiving ∧ b.toNat < 128 ∧ b ≠ Config.hardware.ctEndByte)) ∧
      (t.resp.framingError = true → t.ct.st = .begin)) ∧
    (∀ i, unitOf i = none ∨ unitOf i = some .encoder → exec i s = .next t →
      t.resp.framingError = false)

/-- 10_state.md R36, R37 and 60_exceptions.md R182: what every response looks like after any step from
any state. -/
def Obligations.EveryResponseIsOfItsForm : Prop :=
  ∀ s t : State, step s = .next t → t.resp.Inv

/-- The invariant of the whole block holds after reset. -/
def Obligations.ResetMeetsTheBlockInvariant : Prop := State.reset.Inv

/-- 10_state.md R22: a command reads and writes only the registers of its own unit, and the response. -/
def Obligations.UnitsShareNoState : Prop :=
  ∀ (i : Instr) (s s' : State),
    (unitOf i = some .encoder → s.enc = s'.enc) →
    (unitOf i = some .fixedDecoder → s.fx = s'.fx) →
    (unitOf i = some .contDecoder → s.ct = s'.ct) →
    ∃ t t', exec i s = .next t ∧ exec i s' = .next t' ∧ t.resp = t'.resp ∧
      (unitOf i = some .encoder → t.enc = t'.enc) ∧
      (unitOf i = some .fixedDecoder → t.fx = t'.fx) ∧
      (unitOf i = some .contDecoder → t.ct = t'.ct) ∧
      (unitOf i ≠ some .encoder → t.enc = s.enc) ∧
      (unitOf i ≠ some .fixedDecoder → t.fx = s.fx) ∧
      (unitOf i ≠ some .contDecoder → t.ct = s.ct) ∧
      t.inputs = s.inputs

/-- 20_memory.md R57: sequences of commands to different units commute in their effect on the
registers; a `NOP`, which is addressed to no unit, commutes with every command. -/
def Obligations.CommandsToDifferentUnitsCommute : Prop :=
  ∀ (is js : List Instr) (s : State),
    (∀ i ∈ is, ∀ j ∈ js, unitOf i = none ∨ unitOf i ≠ unitOf j) →
    ∃ t u, execAll (is ++ js) s = .next t ∧ execAll (js ++ is) s = .next u ∧
      t.registers = u.registers

/-- 43_control.md R170, R171: leaving the illegal words and the `NOP`s out of a stream of words changes
no register at its end. -/
def Obligations.IllegalWordsAndNopsAreTransparent : Prop :=
  ∀ (ws : List Word) (s : State),
    ∃ t u, acceptAll ws s = .next t ∧ acceptAll (ws.filter hasEffect) s = .next u ∧
      t.registers = u.registers

/-- 10_state.md R41, R31, R33: the hidden registers that mean nothing in a state can never be told from
the outputs. Two states that agree on the rest show the same outputs after any number of edges with
the same inputs. -/
def Obligations.MeaninglessRegistersAreNeverObserved : Prop :=
  ∀ (s t : State) (n : Nat), s.SameVisible t →
    ∃ s' t', Sys2Proof.core.run n s = .next s' ∧ Sys2Proof.core.run n t = .next t' ∧
      s'.outputs = t'.outputs ∧ s'.SameVisible t'

/-- 10_state.md R23, R30, R32: the codes of the state registers name each state once, and the codes
marked unreachable name none. -/
def Obligations.StateCodesNameEveryStateOnce : Prop :=
  (∀ (c : BitVec 3) (ph : Phase), phaseOfCode c = some ph ↔ c = phaseCode ph) ∧
  (∀ (c : BitVec 3) (st : FxState), fxOfCode c = some st ↔ c = fxCode st) ∧
  (∀ (c : BitVec 2) (st : CtState), ctOfCode c = some st ↔ c = ctCode st) ∧
  (∀ c, phaseOfCode c = none ↔ c = 7#3) ∧
  (∀ c, fxOfCode c = none ↔ c = 6#3 ∨ c = 7#3) ∧
  (∀ c, ctOfCode c = none ↔ c = 3#2)

/-- 10_state.md R43: a unit whose state register holds an unreachable code acts on its next command as
if every register of the unit held its reset value. Before that command any commands to the other
units (whose registers hold any codes, ordinary or not), and any `NOP`s, may have run; what the command
then does is written out from the unit's reset registers, with everything else unchanged. That State
stands for such a code by the unit's reset registers is the model's own choice (log 14). -/
def Obligations.UnreachableCodesActAsReset : Prop :=
  ∀ (s : State) (encC fxC : BitVec 3) (ctC : BitVec 2) (is : List Instr),
    (encC = 7#3 → (∀ i ∈ is, unitOf i ≠ some .encoder) →
      ∃ t, execAll is (s.ofCodes encC fxC ctC) = .next t ∧
        (∀ payload, exec (.encSet payload) t = .next { t with
          enc := ⟨.preMark, 0#_, 0#1, BitVec.ofNat _ Config.hardware.b, payload, true⟩
          resp := ⟨true, 0x1#4, true, true, false, 0#32, false, false⟩ }) ∧
        exec .encTick t = .next { t with
          enc := ⟨.idle, 0#_, 0#1, 0#_, 0#24, false⟩
          resp := ⟨true, 0x2#4, false, false, false, 0#32, false, false⟩ }) ∧
    (fxC = 6#3 ∨ fxC = 7#3 → (∀ i ∈ is, unitOf i ≠ some .fixedDecoder) →
      ∃ t, execAll is (s.ofCodes encC fxC ctC) = .next t ∧
        ∀ b, exec (.fixRx b) t = .next { t with
          fx := if b = 0x53#8 then ⟨.sawM1, 0#32⟩ else ⟨.idle, 0#32⟩
          resp := ⟨true, 0x3#4, false, false, false, 0#32, false, false⟩ }) ∧
    (ctC = 3#2 → (∀ i ∈ is, unitOf i ≠ some .contDecoder) →
      ∃ t, execAll is (s.ofCodes encC fxC ctC) = .next t ∧
        ∀ b, exec (.contRx b) t = .next (if b = 0x53#8 then { t with
          ct := ⟨.magicSeen, 0#32⟩
          resp := ⟨true, 0x4#4, false, false, false, 0#32, false, false⟩ }
        else { t with
          ct := ⟨.begin, 0#32⟩
          resp := ⟨true, 0x4#4, false, false, false, 0#32, true, false⟩ }))

/-- 00_scope.md R5 to R9: exactly which configurations are accepted. -/
def Obligations.ConfigurationsRefusedExactly : Prop :=
  ∀ p : Params, p.valid = true ↔
    (1 ≤ p.nbits ∧ p.nbits ≤ 28) ∧
    (1 ≤ p.b ∧ 1 ≤ p.bw ∧ 1 ≤ p.h ∧ 1 ≤ p.l0 ∧ 1 ≤ p.l1 ∧ 1 ≤ p.e) ∧ p.l0 < p.l1 ∧
    (p.frames = 1 ∨ p.frames = 2) ∧
    (p.b < 2 ^ p.cntW ∧ p.bw < 2 ^ p.cntW ∧ p.h < 2 ^ p.cntW ∧ p.l0 < 2 ^ p.cntW ∧
      p.l1 < 2 ^ p.cntW ∧ p.e < 2 ^ p.cntW) ∧
    (p.ctBeginByte.toNat < 128 ∧ p.ctConfirmByte.toNat < 128 ∧ p.ctEndByte.toNat < 128)

/-- 30_encoding.md R86: the words of `fxmsg V` and `ctmsg V`, with the byte constants of 00_scope.md R9.
The `k` of `ctmsg V` is the least number of 7-bit chunks that hold `V` (30_encoding.md R84). -/
def Obligations.MessageLinesGiveTheirWords : Prop :=
  ∀ v : Word,
    asmWords (.fxmsg v) = .ok [0x30000053#32, 0x30000062#32,
      0x30000000#32 ||| (v &&& 0xFF#32), 0x30000000#32 ||| (v >>> 8 &&& 0xFF#32),
      0x30000000#32 ||| (v >>> 16 &&& 0xFF#32), 0x30000000#32 ||| v >>> 24] ∧
    ∃ k, 1 ≤ k ∧ k ≤ 5 ∧ v.toNat < 2 ^ (7 * k) ∧ (∀ j, 1 ≤ j → v.toNat < 2 ^ (7 * j) → k ≤ j) ∧
      asmWords (.ctmsg v) = .ok ([0x40000053#32, 0x40000062#32] ++
        (List.range k).map (fun j => 0x40000080#32 ||| (v >>> (7 * (k - (j + 1))) &&& 0x7F#32)) ++
        [0x40000063#32])
end

