-- ==== Sys2Proof/Laws/Codes.lean ====
section
/-!
SUPPORT. What the codes of the state registers name, and which unit a code stands for
(10_state.md R23, R30, R32, R43).
-/
namespace Sys2Proof.Machine

@[simp] theorem phaseOfCode_phaseCode (ph : Phase) : phaseOfCode (phaseCode ph) = some ph := by
  cases ph <;> rfl

@[simp] theorem fxOfCode_fxCode (st : FxState) : fxOfCode (fxCode st) = some st := by
  cases st <;> rfl

@[simp] theorem ctOfCode_ctCode (st : CtState) : ctOfCode (ctCode st) = some st := by
  cases st <;> rfl

/-- A reachable code stands for its phase and keeps the other registers. -/
@[simp] theorem Encoder.ofCode_phaseCode {p : Params} (ph : Phase) (e : Encoder p) :
    e.ofCode (phaseCode ph) = { e with phase := ph } := by
  simp [Encoder.ofCode]

/-- The unreachable code stands for the reset encoder (10_state.md R43). -/
@[simp] theorem Encoder.ofCode_unreachable {p : Params} (e : Encoder p) :
    e.ofCode 7#3 = Encoder.reset p := rfl

/-- A reachable code stands for its state and keeps the accumulator. -/
@[simp] theorem FixDecoder.ofCode_fxCode (st : FxState) (d : FixDecoder) :
    d.ofCode (fxCode st) = { d with st := st } := by
  simp [FixDecoder.ofCode]

/-- The unreachable codes stand for the reset decoder (10_state.md R43). -/
theorem FixDecoder.ofCode_unreachable {c : BitVec 3} (h : c = 6#3 ∨ c = 7#3) (d : FixDecoder) :
    d.ofCode c = FixDecoder.reset := by
  rcases h with rfl | rfl <;> rfl

/-- A reachable code stands for its state and keeps the accumulator. -/
@[simp] theorem ContDecoder.ofCode_ctCode (st : CtState) (d : ContDecoder) :
    d.ofCode (ctCode st) = { d with st := st } := by
  simp [ContDecoder.ofCode]

/-- The unreachable code stands for the reset decoder (10_state.md R43). -/
@[simp] theorem ContDecoder.ofCode_unreachable (d : ContDecoder) :
    d.ofCode 3#2 = ContDecoder.reset := rfl

@[simp] theorem State.ofCodes_enc (s : State) (e f : BitVec 3) (c : BitVec 2) :
    (s.ofCodes e f c).enc = s.enc.ofCode e := rfl

@[simp] theorem State.ofCodes_fx (s : State) (e f : BitVec 3) (c : BitVec 2) :
    (s.ofCodes e f c).fx = s.fx.ofCode f := rfl

@[simp] theorem State.ofCodes_ct (s : State) (e f : BitVec 3) (c : BitVec 2) :
    (s.ofCodes e f c).ct = s.ct.ofCode c := rfl

@[simp] theorem State.ofCodes_resp (s : State) (e f : BitVec 3) (c : BitVec 2) :
    (s.ofCodes e f c).resp = s.resp := rfl

@[simp] theorem State.ofCodes_inputs (s : State) (e f : BitVec 3) (c : BitVec 2) :
    (s.ofCodes e f c).inputs = s.inputs := rfl

end Sys2Proof.Machine
end

