-- ==== Sys2Proof/Laws/Config.lean ====
section
/-!
SUPPORT. What the accepted configuration guarantees: the bounds of 00_scope.md R6 to R8 as facts about
the OPEN parameters and about this hardware.
-/
namespace Sys2Proof

/-- The constraints of 00_scope.md R6 to R8 on accepted OPEN parameters. -/
theorem OpenParams.bounds_of_accepted {p : OpenParams} (h : p.refusal = none) :
    (1 ≤ p.b ∧ 1 ≤ p.bw ∧ 1 ≤ p.h ∧ 1 ≤ p.l0 ∧ 1 ≤ p.l1 ∧ 1 ≤ p.e) ∧ p.l0 < p.l1 ∧
    (p.frames = 1 ∨ p.frames = 2) ∧
    (p.b < 2 ^ p.cntW ∧ p.bw < 2 ^ p.cntW ∧ p.h < 2 ^ p.cntW ∧ p.l0 < 2 ^ p.cntW ∧
      p.l1 < 2 ^ p.cntW ∧ p.e < 2 ^ p.cntW) := by
  have hpos : 0 < 2 ^ p.cntW := Nat.two_pow_pos _
  unfold OpenParams.refusal OpenParams.longest at h
  split at h
  · cases h
  · split at h
    · cases h
    · split at h
      · cases h
      · split at h
        · cases h
        · omega

/-- The constraints on this hardware's parameters. -/
theorem Config.hardware_bounds :
    (1 ≤ Config.hardware.b ∧ 1 ≤ Config.hardware.bw ∧ 1 ≤ Config.hardware.h ∧
      1 ≤ Config.hardware.l0 ∧ 1 ≤ Config.hardware.l1 ∧ 1 ≤ Config.hardware.e) ∧
    Config.hardware.l0 < Config.hardware.l1 ∧
    (Config.hardware.frames = 1 ∨ Config.hardware.frames = 2) ∧
    (Config.hardware.b < 2 ^ Config.hardware.cntW ∧ Config.hardware.bw < 2 ^ Config.hardware.cntW ∧
      Config.hardware.h < 2 ^ Config.hardware.cntW ∧ Config.hardware.l0 < 2 ^ Config.hardware.cntW ∧
      Config.hardware.l1 < 2 ^ Config.hardware.cntW ∧
      Config.hardware.e < 2 ^ Config.hardware.cntW) :=
  OpenParams.bounds_of_accepted Config.openChoice.accepted

/-- The whole configuration of this hardware is accepted. -/
theorem Config.hardware_refusal : Config.hardware.refusal = none := by
  have h : Config.hardware.toOpenParams.refusal = none := Config.openChoice.accepted
  unfold Params.refusal
  rw [if_neg (by decide), if_neg (by decide)]
  exact h

/-- The width of `enc_bit` on this hardware is 5 (10_state.md R24). -/
theorem Config.hardware_bitWidth : Config.hardware.bitWidth = 5 := rfl

end Sys2Proof
end

