-- ==== Sys2Proof/Laws/State.lean ====
section
/-!
SUPPORT. What each update of a response or of the state leaves in each field, one lemma per field per
update, so that no proof unfolds a record update.
-/
namespace Sys2Proof.Machine

section Responses
variable (op : Op) (r : Response) (l : Bool) (v : Word)

@[simp] theorem Response.silent_valid : Response.silent.valid = false := rfl
@[simp] theorem Response.silent_op : Response.silent.op = 0x0#4 := rfl
@[simp] theorem Response.silent_levelValid : Response.silent.levelValid = false := rfl
@[simp] theorem Response.silent_level : Response.silent.level = false := rfl
@[simp] theorem Response.silent_valueValid : Response.silent.valueValid = false := rfl
@[simp] theorem Response.silent_value : Response.silent.value = 0#32 := rfl
@[simp] theorem Response.silent_framingError : Response.silent.framingError = false := rfl
@[simp] theorem Response.silent_illegal : Response.silent.illegal = false := rfl
@[simp] theorem Response.accepted_valid : (Response.accepted op).valid = true := rfl
@[simp] theorem Response.accepted_op : (Response.accepted op).op = op := rfl
@[simp] theorem Response.accepted_levelValid : (Response.accepted op).levelValid = false := rfl
@[simp] theorem Response.accepted_level : (Response.accepted op).level = false := rfl
@[simp] theorem Response.accepted_valueValid : (Response.accepted op).valueValid = false := rfl
@[simp] theorem Response.accepted_value : (Response.accepted op).value = 0#32 := rfl
@[simp] theorem Response.accepted_framingError : (Response.accepted op).framingError = false := rfl
@[simp] theorem Response.accepted_illegal : (Response.accepted op).illegal = false := rfl
@[simp] theorem Response.emitLevel_valid : (r.emitLevel l).valid = r.valid := rfl
@[simp] theorem Response.emitLevel_op : (r.emitLevel l).op = r.op := rfl
@[simp] theorem Response.emitLevel_levelValid : (r.emitLevel l).levelValid = true := rfl
@[simp] theorem Response.emitLevel_level : (r.emitLevel l).level = l := rfl
@[simp] theorem Response.emitLevel_valueValid : (r.emitLevel l).valueValid = r.valueValid := rfl
@[simp] theorem Response.emitLevel_value : (r.emitLevel l).value = r.value := rfl
@[simp] theorem Response.emitLevel_framingError : (r.emitLevel l).framingError = r.framingError := rfl
@[simp] theorem Response.emitLevel_illegal : (r.emitLevel l).illegal = r.illegal := rfl
@[simp] theorem Response.emitValue_valid : (r.emitValue v).valid = r.valid := rfl
@[simp] theorem Response.emitValue_op : (r.emitValue v).op = r.op := rfl
@[simp] theorem Response.emitValue_levelValid : (r.emitValue v).levelValid = r.levelValid := rfl
@[simp] theorem Response.emitValue_level : (r.emitValue v).level = r.level := rfl
@[simp] theorem Response.emitValue_valueValid : (r.emitValue v).valueValid = true := rfl
@[simp] theorem Response.emitValue_value : (r.emitValue v).value = v := rfl
@[simp] theorem Response.emitValue_framingError : (r.emitValue v).framingError = r.framingError := rfl
@[simp] theorem Response.emitValue_illegal : (r.emitValue v).illegal = r.illegal := rfl
@[simp] theorem Response.raise_framingError_valid : (r.raise .framingError).valid = r.valid := rfl
@[simp] theorem Response.raise_framingError_op : (r.raise .framingError).op = r.op := rfl
@[simp] theorem Response.raise_framingError_levelValid : (r.raise .framingError).levelValid = r.levelValid := rfl
@[simp] theorem Response.raise_framingError_level : (r.raise .framingError).level = r.level := rfl
@[simp] theorem Response.raise_framingError_valueValid : (r.raise .framingError).valueValid = r.valueValid := rfl
@[simp] theorem Response.raise_framingError_value : (r.raise .framingError).value = r.value := rfl
@[simp] theorem Response.raise_framingError_framingError : (r.raise .framingError).framingError = true := rfl
@[simp] theorem Response.raise_framingError_illegal : (r.raise .framingError).illegal = r.illegal := rfl
@[simp] theorem Response.raise_illegalCommand_valid : (r.raise .illegalCommand).valid = r.valid := rfl
@[simp] theorem Response.raise_illegalCommand_op : (r.raise .illegalCommand).op = r.op := rfl
@[simp] theorem Response.raise_illegalCommand_levelValid : (r.raise .illegalCommand).levelValid = r.levelValid := rfl
@[simp] theorem Response.raise_illegalCommand_level : (r.raise .illegalCommand).level = r.level := rfl
@[simp] theorem Response.raise_illegalCommand_valueValid : (r.raise .illegalCommand).valueValid = r.valueValid := rfl
@[simp] theorem Response.raise_illegalCommand_value : (r.raise .illegalCommand).value = r.value := rfl
@[simp] theorem Response.raise_illegalCommand_framingError : (r.raise .illegalCommand).framingError = r.framingError := rfl
@[simp] theorem Response.raise_illegalCommand_illegal : (r.raise .illegalCommand).illegal = true := rfl
@[simp] theorem Response.emitLevel?_none : r.emitLevel? none = r := rfl
@[simp] theorem Response.emitLevel?_some : r.emitLevel? (some l) = r.emitLevel l := rfl
@[simp] theorem Response.report_quiet : r.report .quiet = r := rfl
@[simp] theorem Response.report_value : r.report (.value v) = r.emitValue v := rfl
@[simp] theorem Response.report_framingError : r.report .framingError = r.raise .framingError := rfl

end Responses

section States
variable (s : State) (w : Word)

@[simp] theorem State.resetEdge_enc : (s.resetEdge).enc = Encoder.reset Config.hardware := rfl
@[simp] theorem State.resetEdge_fx : (s.resetEdge).fx = FixDecoder.reset := rfl
@[simp] theorem State.resetEdge_ct : (s.resetEdge).ct = ContDecoder.reset := rfl
@[simp] theorem State.resetEdge_resp : (s.resetEdge).resp = Response.silent := rfl
@[simp] theorem State.resetEdge_inputs : (s.resetEdge).inputs = s.inputs := rfl
@[simp] theorem State.idleEdge_enc : (s.idleEdge).enc = s.enc := rfl
@[simp] theorem State.idleEdge_fx : (s.idleEdge).fx = s.fx := rfl
@[simp] theorem State.idleEdge_ct : (s.idleEdge).ct = s.ct := rfl
@[simp] theorem State.idleEdge_resp : (s.idleEdge).resp = Response.silent := rfl
@[simp] theorem State.idleEdge_inputs : (s.idleEdge).inputs = s.inputs := rfl
@[simp] theorem State.illegalCommand_enc : (s.illegalCommand w).enc = s.enc := rfl
@[simp] theorem State.illegalCommand_fx : (s.illegalCommand w).fx = s.fx := rfl
@[simp] theorem State.illegalCommand_ct : (s.illegalCommand w).ct = s.ct := rfl
@[simp] theorem State.illegalCommand_resp : (s.illegalCommand w).resp = (Response.accepted (opField w)).raise .illegalCommand := rfl
@[simp] theorem State.illegalCommand_inputs : (s.illegalCommand w).inputs = s.inputs := rfl
@[simp] theorem State.consume_enc : (s.consume).enc = s.enc := rfl
@[simp] theorem State.consume_fx : (s.consume).fx = s.fx := rfl
@[simp] theorem State.consume_ct : (s.consume).ct = s.ct := rfl
@[simp] theorem State.consume_resp : (s.consume).resp = s.resp := rfl
@[simp] theorem State.consume_inputs : (s.consume).inputs = s.inputs.tail := rfl

@[simp] theorem State.outputs_irOut : s.outputs.irOut = s.enc.irOut := rfl
@[simp] theorem State.outputs_resp : s.outputs.resp = s.resp := rfl

/-- `enc_idle` is 1 exactly in `IDLE`. -/
@[simp] theorem Encoder.isIdle_iff {p : Params} (e : Encoder p) :
    e.isIdle = true ↔ e.phase = .idle := by
  simp [Encoder.isIdle]

end States

end Sys2Proof.Machine
end

