-- ==== Sys2Proof/Laws/Decoders.lean ====
section
/-!
SUPPORT. What one byte can do to each decoder, said once.
-/
namespace Sys2Proof.Machine

variable {p : Params}

/-- Everything one byte can do to the fixed-width decoder (41_fixed_decoder.md R131). -/
theorem FixDecoder.receive_cases (byte : Byte) (d : FixDecoder) :
    (d.st = .idle ∧ byte = p.fxMagic1 ∧ d.receive p byte = (⟨.sawM1, d.acc⟩, .quiet)) ∨
    (d.st = .idle ∧ byte ≠ p.fxMagic1 ∧ d.receive p byte = (d, .quiet)) ∨
    (d.st = .sawM1 ∧ byte = p.fxMagic2 ∧ d.receive p byte = (⟨.sawM2, d.acc⟩, .quiet)) ∨
    (d.st = .sawM1 ∧ byte ≠ p.fxMagic2 ∧ d.receive p byte = (⟨.idle, d.acc⟩, .framingError)) ∨
    (d.st = .sawM2 ∧ d.receive p byte = (⟨.acc0, zext32 byte⟩, .quiet)) ∨
    (d.st = .acc0 ∧ d.receive p byte = (⟨.acc1, placeByte d.acc 1 byte⟩, .quiet)) ∨
    (d.st = .acc1 ∧ d.receive p byte = (⟨.acc2, placeByte d.acc 2 byte⟩, .quiet)) ∨
    (d.st = .acc2 ∧ d.receive p byte =
      (⟨.idle, placeByte d.acc 3 byte⟩, .value (placeByte d.acc 3 byte))) := by
  rcases d with ⟨st, acc⟩
  cases st
  · by_cases h : byte = p.fxMagic1 <;> simp [FixDecoder.receive, h]
  · by_cases h : byte = p.fxMagic2 <;> simp [FixDecoder.receive, h]
  all_goals simp [FixDecoder.receive]

/-- Everything one byte can do to the continuation decoder (42_cont_decoder.md R151). -/
theorem ContDecoder.receive_cases (byte : Byte) (d : ContDecoder) :
    (d.st = .begin ∧ byte = p.ctBeginByte ∧ d.receive p byte = (⟨.magicSeen, d.acc⟩, .quiet)) ∨
    (d.st = .begin ∧ byte ≠ p.ctBeginByte ∧ d.receive p byte = (d, .framingError)) ∨
    (d.st = .magicSeen ∧ byte = p.ctConfirmByte ∧
      d.receive p byte = (⟨.receiving, 0#32⟩, .quiet)) ∨
    (d.st = .magicSeen ∧ byte ≠ p.ctConfirmByte ∧
      d.receive p byte = (⟨.begin, d.acc⟩, .framingError)) ∨
    (d.st = .receiving ∧ isDataByte byte = true ∧
      d.receive p byte = (⟨.receiving, foldChunk d.acc byte⟩, .quiet)) ∨
    (d.st = .receiving ∧ isDataByte byte = false ∧ byte = p.ctEndByte ∧
      d.receive p byte = (⟨.begin, d.acc⟩, .value d.acc)) ∨
    (d.st = .receiving ∧ isDataByte byte = false ∧ byte ≠ p.ctEndByte ∧
      d.receive p byte = (⟨.begin, d.acc⟩, .framingError)) := by
  rcases d with ⟨st, acc⟩
  cases st
  · by_cases h : byte = p.ctBeginByte <;> simp [ContDecoder.receive, h]
  · by_cases h : byte = p.ctConfirmByte <;> simp [ContDecoder.receive, h]
  · by_cases hd : isDataByte byte <;> by_cases h : byte = p.ctEndByte <;>
      simp_all [ContDecoder.receive]

/-- A data byte is one of value 128 or more (42_cont_decoder.md R152). -/
theorem isDataByte_iff (byte : Byte) : isDataByte byte = true ↔ 128 ≤ byte.toNat := by
  have h : isDataByte byte = byte.msb := by
    simp [isDataByte, BitVec.msb_eq_getLsbD_last]
  rw [h, BitVec.msb_eq_decide]; simp

/-- A data byte's chunk is its value modulo 128 (42_cont_decoder.md R154). -/
theorem chunk_toNat (byte : Byte) : (chunk byte).toNat = byte.toNat % 128 := by
  simp [chunk]

/-- Placing byte `k` above `k` bytes adds it at its weight (41_fixed_decoder.md R133). -/
theorem placeByte_toNat {acc : Word} {k : Nat} (hk : k ≤ 3) (h : acc.toNat < 2 ^ (8 * k))
    (byte : Byte) : (placeByte acc k byte).toNat = acc.toNat + byte.toNat * 2 ^ (8 * k) := by
  have hb := byte.isLt
  have hw : byte.toNat * 2 ^ (8 * k) < 2 ^ 32 := by
    calc byte.toNat * 2 ^ (8 * k) < 2 ^ 8 * 2 ^ (8 * k) :=
          Nat.mul_lt_mul_of_pos_right hb (Nat.two_pow_pos _)
      _ = 2 ^ (8 + 8 * k) := (pow_add 2 8 (8 * k)).symm
      _ ≤ 2 ^ 32 := Nat.pow_le_pow_right (by decide) (by omega)
  have h8 : byte.toNat % 2 ^ 32 = byte.toNat := Nat.mod_eq_of_lt (by omega)
  rw [placeByte, zext32, BitVec.toNat_or, BitVec.toNat_shiftLeft, BitVec.toNat_setWidth, h8,
    Nat.shiftLeft_eq, Nat.mod_eq_of_lt hw, Nat.or_comm, Nat.mul_comm,
    ← Nat.two_pow_add_eq_or_of_lt h, Nat.add_comm]

/-- The data fold is `value·128 + chunk` modulo 2^32 (42_cont_decoder.md R154). -/
theorem foldChunk_toNat (acc : Word) (byte : Byte) :
    (foldChunk acc byte).toNat = (acc.toNat * 128 + byte.toNat % 128) % 2 ^ 32 := by
  have hc : byte.toNat % 128 < 2 ^ 7 := Nat.mod_lt _ (by decide)
  have h7 : byte.toNat % 128 % 2 ^ 32 = byte.toNat % 128 := Nat.mod_eq_of_lt (by omega)
  have hs : acc.toNat * 2 ^ 7 % 2 ^ 32 = 2 ^ 7 * (acc.toNat % 2 ^ 25) := by
    rw [show (2 : Nat) ^ 32 = 2 ^ 25 * 2 ^ 7 by decide, Nat.mul_mod_mul_right, Nat.mul_comm]
  rw [foldChunk, zext32, BitVec.toNat_or, BitVec.toNat_shiftLeft, BitVec.toNat_setWidth, chunk_toNat,
    h7, Nat.shiftLeft_eq, hs, ← Nat.two_pow_add_eq_or_of_lt hc]
  omega

/-- What `FIX_RX` does to the state. -/
theorem exec_fixRx (byte : Byte) (s : State) :
    exec (.fixRx byte) s =
      .next { s with
        fx := (s.fx.receive Config.hardware byte).1
        resp := (Response.accepted 0x3#4).report (s.fx.receive Config.hardware byte).2 } := rfl

/-- What `CONT_RX` does to the state. -/
theorem exec_contRx (byte : Byte) (s : State) :
    exec (.contRx byte) s =
      .next { s with
        ct := (s.ct.receive Config.hardware byte).1
        resp := (Response.accepted 0x4#4).report (s.ct.receive Config.hardware byte).2 } := rfl

/-- What `NOP` does to the state. -/
theorem exec_nop (s : State) :
    exec .nop s = .next { s with resp := Response.accepted 0x0#4 } := rfl

end Sys2Proof.Machine
end

