-- ==== Sys2Proof/Laws/Encoder.lean ====
section
/-!
SUPPORT. The encoder's phase functions and its two operations: what each can answer, said once.
-/
namespace Sys2Proof.Machine

variable {p : Params}

/-- A bit index in range reads the payload (40_encoder.md R102). -/
theorem bitval_of_lt {n : Nat} (payload : BitVec n) {i : Nat} (h : i < n) :
    bitval payload i = payload.getLsbD (n - 1 - i) := if_pos h

/-- The payload is read most significant bit first (20_memory.md R54). -/
theorem bitval_eq_getMsbD {n : Nat} (payload : BitVec n) {i : Nat} (h : i < n) :
    bitval payload i = payload.getMsbD i := by
  rw [bitval_of_lt payload h, BitVec.getMsbD_eq_getLsbD]; simp [h]

/-- Every phase but `IDLE` lasts at least one tick, and its duration fits the counter
(00_scope.md R6, R8). -/
theorem phaseDur_bounds (hp : p.toOpenParams.refusal = none) (payload : BitVec p.nbits)
    {ph : Phase} (h : ph ≠ .idle) (i : Nat) :
    1 ≤ phaseDur p payload ph i ∧ phaseDur p payload ph i < 2 ^ p.cntW := by
  obtain ⟨⟨hb, hbw, hh, h0, h1, he⟩, -, -, cb, cbw, ch, c0, c1, ce⟩ :=
    OpenParams.bounds_of_accepted hp
  cases ph <;> simp only [phaseDur]
  · exact absurd rfl h
  · exact ⟨hb, cb⟩
  · exact ⟨hbw, cbw⟩
  · exact ⟨hh, ch⟩
  · split
    · exact ⟨h1, c1⟩
    · exact ⟨h0, c0⟩
  · exact ⟨hh, ch⟩
  · exact ⟨he, ce⟩

/-- Only `IDLE` has no level (40_encoder.md R100). -/
@[simp] theorem phaseLevel_eq_none_iff {ph : Phase} : phaseLevel ph = none ↔ ph = .idle := by
  cases ph <;> simp [phaseLevel]

/-- Entering `IDLE` (40_encoder.md R107). -/
theorem Encoder.enter_idle (e : Encoder p) (i f : Nat) :
    e.enter p .idle i f =
      ({ e with phase := .idle, bit := BitVec.ofNat _ i, frame := BitVec.ofNat _ f, rem := 0#_ },
        none) := rfl

/-- Entering any other phase loads its duration and emits its level (40_encoder.md R107). -/
theorem Encoder.enter_of_level (e : Encoder p) {ph : Phase} {l : Bool} (h : phaseLevel ph = some l)
    (i f : Nat) :
    e.enter p ph i f =
      ({ e with phase := ph, bit := BitVec.ofNat _ i, frame := BitVec.ofNat _ f,
                rem := BitVec.ofNat _ (phaseDur p e.payload ph i), irOut := l }, some l) := by
  simp [Encoder.enter, h]

/-- Entering a phase never writes the payload (10_state.md R27). -/
@[simp] theorem Encoder.enter_payload (e : Encoder p) (ph : Phase) (i f : Nat) :
    (e.enter p ph i f).1.payload = e.payload := by
  cases ph <;> rfl

/-- Entering a phase sets it. -/
@[simp] theorem Encoder.enter_phase (e : Encoder p) (ph : Phase) (i f : Nat) :
    (e.enter p ph i f).1.phase = ph := by
  cases ph <;> rfl

/-- The three things a tick can do (40_encoder.md R107): nothing in `IDLE`; count down; enter the next
phase. -/
theorem Encoder.tick_cases (e : Encoder p) :
    (e.phase = .idle ∧ e.tick p = (e, none)) ∨
    (e.phase ≠ .idle ∧ e.rem ≠ 1#_ ∧ e.tick p = ({ e with rem := e.rem - 1#_ }, none)) ∨
    (e.phase ≠ .idle ∧ e.rem = 1#_ ∧
      e.tick p = e.enter p (nextPhase p e.phase e.bit.toNat e.frame.toNat).1
        (nextPhase p e.phase e.bit.toNat e.frame.toNat).2.1
        (nextPhase p e.phase e.bit.toNat e.frame.toNat).2.2) := by
  have key : e.rem - 1#_ = 0#_ ↔ e.rem = 1#_ := by
    rw [BitVec.sub_eq_iff_eq_add]; simp
  unfold Encoder.tick
  by_cases hi : e.phase = .idle
  · exact .inl ⟨hi, if_pos hi⟩
  · rw [if_neg hi]
    by_cases hr : e.rem = 1#_
    · exact .inr (.inr ⟨hi, hr, if_neg (fun h => h (key.2 hr))⟩)
    · exact .inr (.inl ⟨hi, hr, if_pos (fun h => hr (key.1 h))⟩)

/-- A tick never writes the payload (10_state.md R27). -/
@[simp] theorem Encoder.tick_payload (e : Encoder p) : (e.tick p).1.payload = e.payload := by
  rcases e.tick_cases with ⟨-, h⟩ | ⟨-, -, h⟩ | ⟨-, -, h⟩ <;> rw [h]
  exact e.enter_payload _ _ _

/-- What `ENC_SET` does to the state. -/
theorem exec_encSet (payload : BitVec 24) (s : State) :
    exec (.encSet payload) s =
      .next { s with
        enc := (Encoder.setValue Config.hardware payload).1
        resp := (Response.accepted 0x1#4).emitLevel true } := rfl

/-- What `ENC_TICK` does to the state. -/
theorem exec_encTick (s : State) :
    exec .encTick s =
      .next { s with
        enc := (s.enc.tick Config.hardware).1
        resp := (Response.accepted 0x2#4).emitLevel? (s.enc.tick Config.hardware).2 } := rfl

end Sys2Proof.Machine
end

