-- ==== Sys2Proof/Laws/PerInstr.lean ====
section
/-!
SUPPORT. Facts about each command as syntax, one lemma per constructor of `Instr`.
-/
namespace Sys2Proof.Laws

/-- The word of a command carries the command's op at its top (30_encoding.md R71, R72). -/
def OpInWord.Statement (i : Instr) : Prop := opField (encode i) = i.op

/-- The op stands at the top of any word built from an op and an operand field. -/
theorem opField_append (o : Op) (x : BitVec 28) : opField (o ++ x) = o := by
  have h : BitVec.extractLsb' 28 4 (o ++ x : BitVec (4 + 28)) = o := by
    ext k hk
    rw [BitVec.getElem_extractLsb', BitVec.getLsbD_append]
    simp [BitVec.getLsbD_eq_getElem hk]
  exact h

theorem OpInWord.nop : OpInWord.Statement .nop := opField_append _ _

theorem OpInWord.encSet (payload : BitVec 24) : OpInWord.Statement (.encSet payload) :=
  opField_append _ _

theorem OpInWord.encTick : OpInWord.Statement .encTick := opField_append _ _

theorem OpInWord.fixRx (byte : Byte) : OpInWord.Statement (.fixRx byte) := opField_append _ _

theorem OpInWord.contRx (byte : Byte) : OpInWord.Statement (.contRx byte) := opField_append _ _

end Sys2Proof.Laws
end

