-- ==== Sys2Proof/Laws/Port.lean ====
section
/-!
SUPPORT. What a clock edge and a step can do, said once, and where `withFetchWord` puts its word.
-/
namespace Sys2Proof.Machine

/-- The four things an edge can do (30_encoding.md R70, 70_reset_and_hazards.md R200). -/
theorem clockEdge_cases (q : PortIn) (s : State) :
    (q.rst = true ∧ clockEdge q s = .next s.resetEdge) ∨
    (q.rst = false ∧ q.cmdValid = false ∧ clockEdge q s = .next s.idleEdge) ∨
    (q.rst = false ∧ q.cmdValid = true ∧ ∃ i, decode q.cmd = .ok i ∧ clockEdge q s = exec i s) ∨
    (q.rst = false ∧ q.cmdValid = true ∧ ∃ e, decode q.cmd = .error e ∧
      clockEdge q s = .next (s.illegalCommand q.cmd)) := by
  rcases q with ⟨_ | _, _ | _, w⟩
  · exact .inr (.inl ⟨rfl, rfl, rfl⟩)
  · cases h : decode w with
    | ok i => exact .inr (.inr (.inl ⟨rfl, rfl, i, rfl, by simp [clockEdge, accept, h]⟩))
    | error e => exact .inr (.inr (.inr ⟨rfl, rfl, e, rfl, by simp [clockEdge, accept, h]⟩))
  · exact .inl ⟨rfl, rfl⟩
  · exact .inl ⟨rfl, rfl⟩

/-- A step is the edge on the sample the host placed for it. -/
theorem step_eq (s : State) : step s = clockEdge s.sample s.consume := rfl

/-- The first placed sample is the one the edge sees. -/
theorem State.sample_of_inputs {s : State} {q : PortIn} {rest : List PortIn}
    (h : s.inputs = q :: rest) : s.sample = q := by simp [State.sample, h]

/-- Consuming a sample leaves the later ones. -/
theorem State.consume_of_inputs {s : State} {q : PortIn} {rest : List PortIn}
    (h : s.inputs = q :: rest) : s.consume = { s with inputs := rest } := by
  simp [State.consume, h]

/-- The next step after `withFetchWord` accepts that word. -/
theorem step_withFetchWord (s : State) (nbits w : Nat) :
    step (s.withFetchWord nbits w) =
      accept (portWord nbits w) { s with inputs := s.inputs.tail } := rfl

/-- `withFetchWord` touches no register and no later input. -/
theorem State.withFetchWord_frame (s : State) (nbits w : Nat) :
    (s.withFetchWord nbits w).enc = s.enc ∧ (s.withFetchWord nbits w).fx = s.fx ∧
    (s.withFetchWord nbits w).ct = s.ct ∧ (s.withFetchWord nbits w).resp = s.resp ∧
    (s.withFetchWord nbits w).inputs.tail = s.inputs.tail := ⟨rfl, rfl, rfl, rfl, rfl⟩

end Sys2Proof.Machine
end

