-- ==== Sys2Proof/Laws/Run.lean ====
section
/-!
SUPPORT. Sequences: a run unfolds one step at a time, a sequence of commands one command at a time; an
assembler line gives its commands or its refusal.
-/
namespace Sys2Proof.Machine

/-- Right after `ENC_SET` the encoder invariants hold (10_state.md R29, 40_encoder.md R105). -/
theorem Encoder.setValue_inv (payload : BitVec 24) :
    (Encoder.setValue Config.hardware payload).1.Inv Config.hardware := by
  obtain ⟨⟨hb, -⟩, -, hf, hbw, -⟩ := Config.hardware_bounds
  have hr : (Encoder.setValue Config.hardware payload).1.rem.toNat = Config.hardware.b :=
    Nat.mod_eq_of_lt hbw
  refine ⟨nofun, fun _ => ⟨?_, ?_, rfl, ?_⟩, ?_, fun _ _ => rfl⟩
  · rw [hr]; exact hb
  · rw [hr]; exact le_refl _
  · show 0 < Config.hardware.frames
    omega
  · rintro (h | h) <;> cases h

/-- A run of `n + 1` steps is a step and a run of `n`. -/
theorem run_succ_of_next {s t : State} (n : Nat) (h : step s = .next t) :
    Sys2Proof.core.run (n + 1) s = Sys2Proof.core.run n t := by
  have h' : Sys2Proof.core.step s = .next t := h
  simp only [Host.Core.run, h']

@[simp] theorem execAll_nil (s : State) : execAll [] s = .next s := rfl

/-- The first command of a sequence, then the rest (20_memory.md R57). -/
theorem execAll_cons_of_next {i : Instr} {s t : State} (is : List Instr) (h : exec i s = .next t) :
    execAll (i :: is) s = execAll is t := by
  simp only [execAll, h]

@[simp] theorem responses_nil (s : State) : responses [] s = [] := rfl

/-- The first command's response, then those of the rest. -/
theorem responses_cons_of_next {i : Instr} {s t : State} (is : List Instr)
    (h : exec i s = .next t) : responses (i :: is) s = t.resp :: responses is t := by
  simp only [responses, h]

/-- Two sequences one after the other (20_memory.md R57). -/
theorem execAll_append_of_next {is : List Instr} {s t : State} (js : List Instr)
    (h : execAll is s = .next t) : execAll (is ++ js) s = execAll js t := by
  induction is generalizing s with
  | nil => cases h; rfl
  | cons i is ih =>
    cases hi : exec i s with
    | next u => rw [List.cons_append, execAll_cons_of_next _ hi]; exact ih (by simpa [execAll, hi] using h)
    | fault r => simp [execAll, hi] at h
    | refused r => simp [execAll, hi] at h

/-- The responses of two sequences one after the other. -/
theorem responses_append_of_next {is : List Instr} {s t : State} (js : List Instr)
    (h : execAll is s = .next t) : responses (is ++ js) s = responses is s ++ responses js t := by
  induction is generalizing s with
  | nil => cases h; rfl
  | cons i is ih =>
    cases hi : exec i s with
    | next u =>
      rw [List.cons_append, responses_cons_of_next _ hi, responses_cons_of_next _ hi,
        ih (by simpa [execAll, hi] using h)]
      rfl
    | fault r => simp [execAll, hi] at h
    | refused r => simp [execAll, hi] at h

/-- A line within its bounds gives its commands (30_encoding.md R86). -/
theorem asmCommands_of_accepted {a : Asm} (h : a.refusal = none) :
    asmCommands a = .ok (asmExpand a) := by
  unfold asmCommands; rw [h]

/-- A line past a bound of 30_encoding.md R86 is refused by the bound's name (log 20). -/
theorem asmCommands_of_refused {a : Asm} {e : AsmError} (h : a.refusal = some e) :
    asmCommands a = .error e := by
  unfold asmCommands; rw [h]

end Sys2Proof.Machine
end

