-- ==== Sys2Proof/Tests/Slice0.lean ====
section
/-!
SUPPORT. The model's own tests. Expected results are those of the vectors of 95_test_vectors.md, named
in each comment; the configurations are that file's example sets. The last part shows, for each
statement with hypotheses, a state and operands that meet them.
-/
namespace Sys2Proof.Tests

open Sys2Proof.Machine

/-! ### Configurations (95_test_vectors.md section 1) and what the checks refuse -/

/-- The set PX. -/
def px : Params :=
  { Config.exampleOpen with
    nbits := 24, fxMagic1 := 0x53#8, fxMagic2 := 0x62#8, ctBeginByte := 0x53#8,
    ctConfirmByte := 0x62#8, ctEndByte := 0x63#8 }

/-- The set PX2: PX with two frames. -/
def px2 : Params := { px with frames := 2 }

/-- The set PS. -/
def ps : Params := { px with nbits := 4, b := 2, bw := 1, e := 2 }

theorem test_example_sets_accepted : px.valid = true ∧ px2.valid = true ∧ ps.valid = true := by decide

theorem test_refuses_zero_duration : { px with h := 0 }.refusal = some .zeroDuration := by decide
theorem test_refuses_equal_gaps : { px with l0 := 2 }.refusal = some .gapOrder := by decide
theorem test_refuses_three_frames : { px with frames := 3 }.refusal = some .frames := by decide
theorem test_refuses_narrow_counter : { px with cntW := 2 }.refusal = some .counterWidth := by decide
theorem test_refuses_nbits_29 : { px with nbits := 29 }.refusal = some .payloadWidth := by decide
theorem test_refuses_nbits_0 : { px with nbits := 0 }.refusal = some .payloadWidth := by decide
theorem test_refuses_end_byte_with_bit7 :
    { px with ctEndByte := 0xE3#8 }.refusal = some .controlByte := by decide

theorem test_refuses_payload_of_25_bits : (Asm.set 0x1000000).refusal = some .payloadTooLarge := by
  decide
theorem test_refuses_fx_256 : (Asm.fx 256).refusal = some .byteTooLarge := by decide
theorem test_refuses_ct_256 : (Asm.ct 256).refusal = some .byteTooLarge := by decide
theorem test_refuses_tick_0 : (Asm.tickN 0).refusal = some .noTicks := by decide

/-- The widths of `enc_bit` (10_state.md R24). -/
theorem test_bit_widths : px.bitWidth = 5 ∧ ps.bitWidth = 2 ∧ { px with nbits := 1 }.bitWidth = 1 ∧
    { px with nbits := 17 }.bitWidth = 5 ∧ { px with nbits := 16 }.bitWidth = 4 := by decide

/-! ### Decoding, words written out from 30_encoding.md R73 to R77 -/

/-- W1 -/
theorem test_decode_nop : decode 0b00000000000000000000000000000000#32 = .ok .nop := by decide
/-- W3 -/
theorem test_decode_encSet :
    decode 0b00010000101010111100110111101111#32 = .ok (.encSet 0xABCDEF#24) := by decide
/-- W7 -/
theorem test_decode_encTick : decode 0b00100000000000000000000000000000#32 = .ok .encTick := by decide
/-- W9 -/
theorem test_decode_fixRx :
    decode 0b00110000000000000000000011111111#32 = .ok (.fixRx 0xFF#8) := by decide
/-- S1, command 1 -/
theorem test_decode_contRx :
    decode 0b01000000000000000000000001010011#32 = .ok (.contRx 0x53#8) := by decide
/-- W2, W4, W5, W8, W10, W11 -/
theorem test_decode_reserved_bits :
    decode 0x00000001#32 = .error .reservedBits ∧ decode 0x11000000#32 = .error .reservedBits ∧
    decode 0x1FFFFFFF#32 = .error .reservedBits ∧ decode 0x20000001#32 = .error .reservedBits ∧
    decode 0x30000153#32 = .error .reservedBits ∧ decode 0x40000100#32 = .error .reservedBits := by
  decide
/-- W12, W13, W14 -/
theorem test_decode_reserved_op :
    decode 0x50000000#32 = .error .reservedOp ∧ decode 0xF0000000#32 = .error .reservedOp ∧
    decode 0xFFFFFFFF#32 = .error .reservedOp := by decide
/-- W6: with NBITS = 28 the reserved-bit test of `ENC_SET` is empty. -/
theorem test_no_reserved_bits_at_nbits_28 : reservedClear 28 0x1FFFFFFF#32 = true := by decide
/-- P1, P3, P4: the words of `fx 0x56`, `set 0xA`, `set 0x800001`. -/
theorem test_encode : encode (.fixRx 0x56#8) = 0x30000056#32 ∧
    encode (.encSet 0xA#24) = 0x1000000A#32 ∧ encode (.encSet 0x800001#24) = 0x10800001#32 := by decide
theorem test_table_words : decodeTableWord 32 0x10000001 = some (.encSet 1#24) ∧
    decodeTableWord 32 0x40000100 = none := by decide
/-- P2: `ctmsg 0x12345678`. -/
theorem test_ctmsg_words : asmWords (.ctmsg 0x12345678#32) =
    .ok [0x40000053#32, 0x40000062#32, 0x40000081#32, 0x40000091#32, 0x400000D1#32, 0x400000AC#32,
      0x400000F8#32, 0x40000063#32] := by decide

/-! ### One step of each unit -/

/-- An encoder at the start of the last tick of a phase. -/
def encAt (p : Params) (phase : Phase) (bit frame payload : Nat) (irOut : Bool) : Encoder p :=
  { phase := phase, bit := BitVec.ofNat _ bit, frame := BitVec.ofNat _ frame, rem := 1#_,
    payload := BitVec.ofNat _ payload, irOut := irOut }

/-- EN1, EN14 -/
theorem test_set_starts_preamble : Encoder.setValue px 0x000001#24 =
    ({ phase := .preMark, bit := 0#5, frame := 0#1, rem := 4#3, payload := 0x000001#24,
       irOut := true }, true) := by decide
/-- EN6, EN7: payload bit 3 of 0x123456 is 1, bit 0 is 0. -/
theorem test_tick_enters_bit_gap :
    ((encAt px .bitMark 3 0 0x123456 true).tick px).1.rem.toNat = 2 ∧
    ((encAt px .bitMark 0 0 0x123456 true).tick px).1.rem.toNat = 1 := by decide
/-- EN11, EN12: the last trailer gap with one frame, the first with two. -/
theorem test_tick_leaves_trailer_gap :
    (encAt px .trlGap 0 0 0x123456 false).tick px =
      ({ encAt px .idle 0 0 0x123456 false with rem := 0#3 }, none) ∧
    (encAt px2 .trlGap 0 0 0x123456 false).tick px2 =
      ({ encAt px2 .preMark 0 1 0x123456 true with rem := 4#3 }, some true) := by decide
/-- P3: with NBITS = 4 and payload 0xA, bit 0 is 1 and the gap after bit 3 is followed by the trailer. -/
theorem test_tick_nbits_4 :
    ((encAt ps .bitMark 0 0 0xA true).tick ps).1.rem.toNat = 2 ∧
    ((encAt ps .bitGap 3 0 0xA false).tick ps).1.phase = .trlMark := by decide

/-- X4: a second magic byte in `FX_SAW_M1` is a framing error and is not looked at again. -/
theorem test_fix_mismatch : FixDecoder.receive px 0x53#8 ⟨.sawM1, 0#32⟩ =
    (⟨.idle, 0#32⟩, .framingError) := by decide
/-- X6, X8 -/
theorem test_fix_first_and_last_byte :
    FixDecoder.receive px 0x05#8 ⟨.sawM2, 0x04030201#32⟩ = (⟨.acc0, 0x00000005#32⟩, .quiet) ∧
    FixDecoder.receive px 0x04#8 ⟨.acc2, 0x00030201#32⟩ =
      (⟨.idle, 0x04030201#32⟩, .value 0x04030201#32) := by decide

/-- Y4, Y8: a begin byte outside `CT_BEGIN` is a framing error, not a new begin. -/
theorem test_cont_begin_byte_elsewhere :
    ContDecoder.receive px 0x53#8 ⟨.magicSeen, 0#32⟩ = (⟨.begin, 0#32⟩, .framingError) ∧
    ContDecoder.receive px 0x53#8 ⟨.receiving, 1#32⟩ = (⟨.begin, 1#32⟩, .framingError) := by decide
/-- S1 command 4, Y10, Y11, Y12 -/
theorem test_cont_fold_and_end :
    ContDecoder.receive px 0x82#8 ⟨.receiving, 1#32⟩ = (⟨.receiving, 130#32⟩, .quiet) ∧
    ContDecoder.receive px 0xFF#8 ⟨.receiving, 0x01FFFFFF#32⟩ =
      (⟨.receiving, 0xFFFFFFFF#32⟩, .quiet) ∧
    ContDecoder.receive px 0x80#8 ⟨.receiving, 0x10000000#32⟩ = (⟨.receiving, 0#32⟩, .quiet) ∧
    ContDecoder.receive px 0x63#8 ⟨.receiving, 0#32⟩ = (⟨.begin, 0#32⟩, .value 0#32) := by decide

/-! ### One edge of the whole block -/

/-- What a state shows after a step, as far as decide can compare it. -/
def seen (o : Host.Outcome State Fault Refusal) : Option (Phase × FixDecoder × ContDecoder × PortOut) :=
  match o with
  | .next t => some (t.enc.phase, t.fx, t.ct, t.outputs)
  | .fault _ => none
  | .refused _ => none

/-- W1 -/
theorem test_step_nop : seen (step (State.reset.withFetchWord 32 0x00000000)) =
    some (.idle, ⟨.idle, 0#32⟩, ⟨.begin, 0#32⟩,
      ⟨false, true, ⟨true, 0x0#4, false, false, false, 0#32, false, false⟩⟩) := by decide
/-- EN1 -/
theorem test_step_encSet : seen (step (State.reset.withFetchWord 32 0x10123456)) =
    some (.preMark, ⟨.idle, 0#32⟩, ⟨.begin, 0#32⟩,
      ⟨true, false, ⟨true, 0x1#4, true, true, false, 0#32, false, false⟩⟩) := by decide
/-- W7 -/
theorem test_step_encTick : seen (step (State.reset.withFetchWord 32 0x20000000)) =
    some (.idle, ⟨.idle, 0#32⟩, ⟨.begin, 0#32⟩,
      ⟨false, true, ⟨true, 0x2#4, false, false, false, 0#32, false, false⟩⟩) := by decide
/-- S2, command 1 -/
theorem test_step_fixRx : seen (step (State.reset.withFetchWord 32 0x30000053)) =
    some (.idle, ⟨.sawM1, 0#32⟩, ⟨.begin, 0#32⟩,
      ⟨false, true, ⟨true, 0x3#4, false, false, false, 0#32, false, false⟩⟩) := by decide
/-- Y2 -/
theorem test_step_contRx : seen (step (State.reset.withFetchWord 32 0x40000063)) =
    some (.idle, ⟨.idle, 0#32⟩, ⟨.begin, 0#32⟩,
      ⟨false, true, ⟨true, 0x4#4, false, false, false, 0#32, true, false⟩⟩) := by decide
/-- W10: not `FIX_RX 0x53`. -/
theorem test_step_illegal : seen (step (State.reset.withFetchWord 32 0x30000153)) =
    some (.idle, ⟨.idle, 0#32⟩, ⟨.begin, 0#32⟩,
      ⟨false, true, ⟨true, 0x3#4, false, false, false, 0#32, false, true⟩⟩) := by decide
/-- Z4: a command offered at an edge with `rst = 1` is not accepted and gets no response. -/
theorem test_step_reset : seen (step { State.reset with
      fx := ⟨.acc1, 7#32⟩, inputs := [⟨true, true, 0x30000053#32⟩] }) =
    some (.idle, ⟨.idle, 0#32⟩, ⟨.begin, 0#32⟩,
      ⟨false, true, ⟨false, 0x0#4, false, false, false, 0#32, false, false⟩⟩) := by decide
/-- R36: the response lasts one cycle. -/
theorem test_step_idle : seen (step { State.reset with
      resp := ⟨true, 0x3#4, false, false, true, 5#32, false, false⟩ }) =
    some (.idle, ⟨.idle, 0#32⟩, ⟨.begin, 0#32⟩,
      ⟨false, true, ⟨false, 0x0#4, false, false, false, 0#32, false, false⟩⟩) := by decide

/-! ### Witnesses: the hypotheses of each statement can be met -/

/-- The reset state with another encoder. -/
def withEnc (e : Encoder Config.hardware) : State := { State.reset with enc := e }

/-- The state right after `ENC_SET 0`. -/
def afterSet : State := withEnc (Encoder.setValue Config.hardware 0#24).1

/-- A word offered at the next edge. -/
def offering (w : Word) : State := { State.reset with inputs := [⟨false, true, w⟩] }

theorem witness_ResetEdgesGiveResetState : ∃ (s : State) (ps rest : List PortIn), ps ≠ [] ∧
    (∀ p ∈ ps, p.rst = true) ∧ s.inputs = ps ++ rest :=
  ⟨{ afterSet with inputs := [⟨true, true, 1#32⟩] }, [⟨true, true, 1#32⟩], [], by decide, by decide, rfl⟩

theorem witness_IdleEdgesHoldRegistersAndSilenceResponse : ∃ (s : State) (ps rest : List PortIn),
    ps ≠ [] ∧ (∀ p ∈ ps, p.rst = false ∧ p.cmdValid = false) ∧ s.inputs = ps ++ rest :=
  ⟨{ afterSet with inputs := [⟨false, false, 1#32⟩] }, [⟨false, false, 1#32⟩], [], by decide, by decide,
    rfl⟩

theorem witness_StepRunsTheDecodedCommand : ∃ (s : State) (w : Word) (rest : List PortIn) (i : Instr),
    s.inputs = ⟨false, true, w⟩ :: rest ∧ decode w = .ok i ∧ i.wellFormed = true :=
  ⟨offering 0x10FFFFFF#32, _, [], .encSet 0xFFFFFF#24, rfl, by decide, by decide⟩

/-- The least and the greatest reserved word, and the least reserved bit of an operand. -/
theorem witness_IllegalWordOnlyReported : ∀ w ∈ [0x50000000#32, 0xFFFFFFFF#32, 0x30000100#32],
    ∃ e, (offering w).inputs = ⟨false, true, w⟩ :: [] ∧ decode w = .error e := by
  intro w h
  fin_cases h
  · exact ⟨.reservedOp, rfl, by decide⟩
  · exact ⟨.reservedOp, rfl, by decide⟩
  · exact ⟨.reservedBits, rfl, by decide⟩

theorem witness_BackToBackCommandsAllRun : ∃ (is : List Instr) (s : State) (rest : List PortIn),
    is ≠ [] ∧ s.inputs = is.map (fun i => ⟨false, true, encode i⟩) ++ rest :=
  ⟨[.encTick, .nop], { afterSet with inputs := [⟨false, true, 0x20000000#32⟩, ⟨false, true, 0#32⟩] },
    [], by decide, by decide⟩

theorem witness_DecodeOfEncodeIsIdentity : (Instr.encSet 0xFFFFFF#24).wellFormed = true ∧
    (Instr.contRx 0xFF#8).wellFormed = true := by decide

theorem witness_EncodeOfDecodeIsIdentity : decode 0x10FFFFFF#32 = .ok (.encSet 0xFFFFFF#24) := by decide

theorem witness_PreemptionLeavesNothingOfTheOldFrame :
    ∀ i ∈ [Instr.encTick, .encSet 1#24], unitOf i = some .encoder := by decide

theorem witness_EncTickInIdleOnlyResponds : State.reset.enc.phase = .idle := rfl

theorem witness_EncTickCountsDown : ∃ s : State, s.enc.phase ≠ .idle ∧ s.enc.rem.toNat = 2 := by
  refine ⟨withEnc { (Encoder.setValue Config.hardware 0#24).1 with rem := 2#_ }, by decide, ?_⟩
  obtain ⟨⟨-, -, -, -, -, -⟩, -, -, -, -, -, -, h1, -⟩ := Config.hardware_bounds
  exact Nat.mod_eq_of_lt (by have := Config.hardware_bounds; omega)

/-- One state for each clause, at the ends of the ranges of the bit and frame indices. -/
theorem witness_EncTickEntersTheNextPhase :
    (∀ ph ∈ [Phase.preMark, .preGap, .trlMark, .trlGap],
      (encAt Config.hardware ph 0 0 0 false).rem = 1#_ ∧
      (encAt Config.hardware ph 0 0 0 false).phase = ph ∧
      (encAt Config.hardware ph 0 0 0 false).bit = 0#_ ∧
      (encAt Config.hardware ph 0 0 0 false).frame.toNat < Config.hardware.frames) ∧
    (∀ n ∈ [0, 23], (encAt Config.hardware .bitMark n 0 0 true).bit.toNat = n ∧ n < 24) ∧
    (∀ n ∈ [0, 22], (encAt Config.hardware .bitGap n 0 0 false).bit.toNat = n ∧ n < 23) ∧
    (encAt Config.hardware .bitGap 23 0 0 false).bit.toNat = 23 := by
  have hf : 0 < Config.hardware.frames := by have := Config.hardware_bounds.2.2.1; omega
  exact ⟨fun ph _ => ⟨rfl, rfl, rfl, hf⟩, by decide, by decide, by decide⟩

theorem witness_PhaseHoldsForExactlyItsTicks :
    afterSet.enc.Inv Config.hardware ∧ afterSet.enc.phase ≠ .idle ∧ 0 < afterSet.enc.rem.toNat :=
  ⟨Encoder.setValue_inv _, by decide, ((Encoder.setValue_inv 0#24).2.1 (by decide)).1⟩

theorem witness_TransmissionFollowsTheFrameLayout :
    noEncSet [.encTick, .nop, .fixRx 0#8, .encTick] := by
  intro payload h; simp at h

/-- At both ends of the range of the tick count: none, and all of them. -/
theorem witness_FrameLengthIsTFrameTimesFrames (payload : BitVec 24) :
    noEncSet [] ∧ noEncSet (List.replicate
      (frameTicks Config.hardware payload * Config.hardware.frames) .encTick) := by
  refine ⟨by intro p h; simp at h, fun p h => ?_⟩
  rw [List.mem_replicate] at h
  cases h.2

theorem witness_LevelsEmittedAlternate (payload : BitVec 24) : ∃ is, noEncSet is ∧
    is.count .encTick = frameTicks Config.hardware payload * Config.hardware.frames :=
  ⟨List.replicate _ .encTick, (witness_FrameLengthIsTFrameTimesFrames payload).2, by simp⟩

theorem witness_BitGapsGiveBackThePayload : ∃ f i : Nat, f < Config.hardware.frames ∧ i < 24 :=
  ⟨0, 23, by have := Config.hardware_bounds.2.2.1; omega, by decide⟩

theorem witness_EveryStepKeepsTheEncoderInvariants : ∃ t, afterSet.enc.Inv Config.hardware ∧
    step { afterSet with inputs := [⟨false, true, 0x20000000#32⟩] } = .next t :=
  ⟨_, Encoder.setValue_inv _, rfl⟩

theorem witness_OutputLevelFollowsEmissions : ∃ t, (offering 0x10000000#32).sample.rst = false ∧
    step (offering 0x10000000#32) = .next t := ⟨_, rfl, rfl⟩

theorem witness_PayloadWrittenOnlyByEncSet : ∃ t, (offering 0x10000001#32).sample.rst = false ∧
    step (offering 0x10000001#32) = .next t ∧
    t.enc.payload ≠ (offering 0x10000001#32).enc.payload := ⟨_, rfl, rfl, by decide⟩

/-- Every state of the fixed-width decoder, with a byte for each branch of its rows. -/
theorem witness_FixRxFollowsItsTable : ∀ st : FxState,
    ∃ s : State, s.fx.st = st ∧ (0x53#8 ≠ 0x62#8) := fun st =>
  ⟨{ State.reset with fx := ⟨st, 0#32⟩ }, rfl, by decide⟩

theorem witness_FixedFrameRoundTrip : State.reset.fx.st = .idle := rfl

theorem witness_FxmsgYieldsItsValue : State.reset.fx.st = .idle := rfl

/-- At the greatest accumulator of each state. -/
theorem witness_EveryStepKeepsTheFixedAccumulatorBound :
    (FixDecoder.mk .acc0 0xFF#32).Inv ∧ (FixDecoder.mk .acc1 0xFFFF#32).Inv ∧
    (FixDecoder.mk .acc2 0xFFFFFF#32).Inv ∧
    ∃ t, step { State.reset with fx := ⟨.acc1, 0xFFFF#32⟩ } = .next t := by
  refine ⟨?_, ?_, ?_, _, rfl⟩ <;> simp [FixDecoder.Inv]

/-- Every state of the continuation decoder; 128 is the least data byte and 127 the greatest control
byte. -/
theorem witness_ContRxFollowsItsTable : ∀ st : CtState,
    ∃ s : State, s.ct.st = st ∧ 128 ≤ (0x80#8).toNat ∧ ¬ 128 ≤ (0x7F#8).toNat := fun st =>
  ⟨{ State.reset with ct := ⟨st, 0#32⟩ }, rfl, by decide, by decide⟩

theorem witness_DataBytesConcatenateModulo32Bits : ∃ s : State, s.ct.st = .receiving ∧
    ∀ d ∈ [0x80#8, 0xFF#8], 128 ≤ d.toNat :=
  ⟨{ State.reset with ct := ⟨.receiving, 1#32⟩ }, rfl, by decide⟩

theorem witness_ContinuationFrameRoundTrip : State.reset.ct.st = .begin := rfl

theorem witness_ThreeBytesResynchroniseTheContinuationDecoder :
    ∀ i ∈ [Instr.nop, .encTick] ++ [] ++ [.fixRx 0x53#8], unitOf i ≠ some .contDecoder := by decide

/-- A command of each of the three clauses. -/
theorem witness_FramingErrorsExactlyAndRecovered :
    (∃ t, exec (.fixRx 0x53#8) { State.reset with fx := ⟨.sawM1, 0#32⟩ } = .next t ∧
      t.resp.framingError = true) ∧
    (∃ t, exec (.contRx 0x7F#8) { State.reset with ct := ⟨.receiving, 0#32⟩ } = .next t ∧
      t.resp.framingError = true) ∧
    (unitOf .nop = none ∧ unitOf .encTick = some .encoder ∧
      ∃ t, exec .encTick afterSet = .next t) :=
  ⟨⟨_, rfl, by decide⟩, ⟨_, rfl, by decide⟩, rfl, rfl, _, rfl⟩

theorem witness_EveryResponseIsOfItsForm : ∃ t, step afterSet = .next t := ⟨_, rfl⟩

theorem witness_UnitsShareNoState : ∃ s s' : State, s ≠ s' ∧
    (unitOf .encTick = some .encoder → s.enc = s'.enc) ∧
    (unitOf .encTick = some .fixedDecoder → s.fx = s'.fx) ∧
    (unitOf .encTick = some .contDecoder → s.ct = s'.ct) :=
  ⟨State.reset, { State.reset with fx := ⟨.acc0, 1#32⟩, ct := ⟨.receiving, 1#32⟩ },
    fun h => absurd (congrArg State.fx h) (by decide), fun _ => rfl, by decide, by decide⟩

theorem witness_CommandsToDifferentUnitsCommute :
    ∀ i ∈ [Instr.encTick, .nop], ∀ j ∈ [Instr.fixRx 0x53#8, .contRx 0x53#8, .nop],
      unitOf i = none ∨ unitOf i ≠ unitOf j := by decide

/-- Two states that differ in every register that means nothing in them. -/
theorem witness_MeaninglessRegistersAreNeverObserved : ∃ s t : State, s ≠ t ∧ s.SameVisible t :=
  ⟨State.reset,
    { State.reset with
      enc := { State.reset.enc with payload := 1#24 }, fx := ⟨.idle, 1#32⟩, ct := ⟨.begin, 1#32⟩ },
    fun h => absurd (congrArg State.fx h) (by decide),
    ⟨rfl, rfl, rfl, rfl, fun h => absurd rfl h, rfl, by decide, rfl, by decide⟩⟩

/-- Both unreachable codes of `fx_state`, and commands to the other units before the command. -/
theorem witness_UnreachableCodesActAsReset :
    (6#3 = 6#3 ∨ 6#3 = 7#3) ∧ (7#3 = 6#3 ∨ 7#3 = 7#3) ∧
    (∀ i ∈ [Instr.nop, .fixRx 0x53#8, .contRx 0x53#8], unitOf i ≠ some .encoder) ∧
    (∀ i ∈ [Instr.nop, .encTick, .contRx 0x53#8], unitOf i ≠ some .fixedDecoder) ∧
    (∀ i ∈ [Instr.nop, .encSet 1#24, .fixRx 0x53#8], unitOf i ≠ some .contDecoder) := by decide

end Sys2Proof.Tests
end

section
/-!
PROOFS, family 00_scope.md. Each check of a configuration as an `↔`, and from these O47.
-/
namespace Sys2Proof

/-- The maximum of 00_scope.md R8 is below a bound exactly when each duration is. -/
theorem OpenParams.longest_lt_iff {p : OpenParams} {n : Nat} :
    p.longest < n ↔ p.b < n ∧ p.bw < n ∧ p.h < n ∧ p.l0 < n ∧ p.l1 < n ∧ p.e < n := by
  simp only [OpenParams.longest, max_lt_iff]

/-- The counter width of 00_scope.md R8 is enough exactly when every duration fits in `CNT_W` bits. -/
theorem OpenParams.longest_le_counterMax_iff {p : OpenParams} :
    p.longest ≤ 2 ^ p.cntW - 1 ↔
      p.b < 2 ^ p.cntW ∧ p.bw < 2 ^ p.cntW ∧ p.h < 2 ^ p.cntW ∧ p.l0 < 2 ^ p.cntW ∧
        p.l1 < 2 ^ p.cntW ∧ p.e < 2 ^ p.cntW := by
  rw [← OpenParams.longest_lt_iff, Nat.le_sub_one_iff_lt (Nat.two_pow_pos p.cntW)]

/-- The OPEN parameters are accepted exactly when they meet 00_scope.md R6 to R8; the converse of
`OpenParams.bounds_of_accepted` passes every branch of the check in turn. -/
theorem OpenParams.refusal_eq_none_iff {p : OpenParams} :
    p.refusal = none ↔
      (1 ≤ p.b ∧ 1 ≤ p.bw ∧ 1 ≤ p.h ∧ 1 ≤ p.l0 ∧ 1 ≤ p.l1 ∧ 1 ≤ p.e) ∧ p.l0 < p.l1 ∧
      (p.frames = 1 ∨ p.frames = 2) ∧
      (p.b < 2 ^ p.cntW ∧ p.bw < 2 ^ p.cntW ∧ p.h < 2 ^ p.cntW ∧ p.l0 < 2 ^ p.cntW ∧
        p.l1 < 2 ^ p.cntW ∧ p.e < 2 ^ p.cntW) := by
  refine ⟨OpenParams.bounds_of_accepted, ?_⟩
  rintro ⟨hdurations, hgaps, hframes, hcounter⟩
  have hnonzero : ¬ (p.b = 0 ∨ p.bw = 0 ∨ p.h = 0 ∨ p.l0 = 0 ∨ p.l1 = 0 ∨ p.e = 0) := by omega
  rw [OpenParams.refusal, if_neg hnonzero, if_neg (not_not_intro hgaps),
    if_neg (not_not_intro hframes),
    if_neg (not_not_intro (OpenParams.longest_le_counterMax_iff.mpr hcounter))]

/-- No continuation control byte has its top bit set exactly when each is below 128
(00_scope.md R9). -/
theorem Params.controlBytes_clear_iff {p : Params} :
    ¬ (p.ctBeginByte.msb ∨ p.ctConfirmByte.msb ∨ p.ctEndByte.msb) ↔
      p.ctBeginByte.toNat < 128 ∧ p.ctConfirmByte.toNat < 128 ∧ p.ctEndByte.toNat < 128 := by
  simp [BitVec.msb_eq_decide]

/-- A configuration passes when `NBITS` is legal (00_scope.md R5), the control bytes are (R9), and the
OPEN parameters pass their own check (R6 to R8). -/
theorem Params.refusal_eq_none_iff {p : Params} :
    p.refusal = none ↔
      (1 ≤ p.nbits ∧ p.nbits ≤ 28) ∧
      ¬ (p.ctBeginByte.msb ∨ p.ctConfirmByte.msb ∨ p.ctEndByte.msb) ∧
      p.toOpenParams.refusal = none := by
  unfold Params.refusal
  split
  next hwidth => exact ⟨nofun, fun ⟨hlegal, _⟩ => absurd hlegal hwidth⟩
  next hwidth =>
    split
    next hbytes => exact ⟨nofun, fun ⟨_, hclear, _⟩ => absurd hbytes hclear⟩
    next hclear =>
      exact ⟨fun hopen => ⟨not_not.mp hwidth, hclear, hopen⟩, fun ⟨_, _, hopen⟩ => hopen⟩

theorem Params.valid_iff {p : Params} : p.valid = true ↔ p.refusal = none :=
  Option.isNone_iff_eq_none

/-- Settles O47: the three checks of `Params.refusal_eq_none_iff`, each by its own `↔`. -/
theorem configurationsRefusedExactly : Obligations.ConfigurationsRefusedExactly := by
  intro p
  rw [Params.valid_iff, Params.refusal_eq_none_iff, Params.controlBytes_clear_iff,
    OpenParams.refusal_eq_none_iff]
  constructor
  · rintro ⟨hwidth, hbytes, hdurations, hgaps, hframes, hcounter⟩
    exact ⟨hwidth, hdurations, hgaps, hframes, hcounter, hbytes⟩
  · rintro ⟨hwidth, hdurations, hgaps, hframes, hcounter, hbytes⟩
    exact ⟨hwidth, hbytes, hdurations, hgaps, hframes, hcounter⟩

end Sys2Proof
end

section
/-!
PROOFS, family 10_state.md, the encoder: where in a frame it can stand, what a tick leaves of the
invariants of R29, and when `ir_out` is written (R28).
-/
namespace Sys2Proof.Machine

variable {p : Params} {e : Encoder p}

/-- The frame index and the bit index are in the ranges that 10_state.md R29 (b) and (c) give them in
a phase of a frame. -/
def InFrame (p : Params) (ph : Phase) (i f : Nat) : Prop :=
  f < p.frames ∧ (ph = .bitMark ∨ ph = .bitGap → i < p.nbits) ∧
  (ph ≠ .bitMark → ph ≠ .bitGap → i = 0)

/-- A transmitting encoder within R29 stands somewhere in a frame. -/
theorem Encoder.Inv.inFrame (h : e.Inv p) (hbusy : e.phase ≠ .idle) :
    InFrame p e.phase e.bit.toNat e.frame.toNat := by
  obtain ⟨-, hrunning, hbit, hzero⟩ := h
  obtain ⟨-, -, -, hframe⟩ := hrunning hbusy
  exact ⟨hframe, hbit, fun h1 h2 => by simp [hzero h1 h2]⟩

/-- From a place in a frame `next` goes to a place in a frame, or from the last trailer gap to `IDLE`:
the arguments for which 40_encoder.md R104 has no clause are not met. -/
theorem nextPhase_inFrame (hp : p.refusal = none) {ph : Phase} {i f : Nat} (h : InFrame p ph i f)
    (hbusy : ph ≠ .idle) :
    (ph = .trlGap ∧ nextPhase p ph i f = (.idle, 0, 0)) ∨
    ((nextPhase p ph i f).1 ≠ .idle ∧
      InFrame p (nextPhase p ph i f).1 (nextPhase p ph i f).2.1 (nextPhase p ph i f).2.2) := by
  obtain ⟨hf, hbit, -⟩ := h
  obtain ⟨⟨hwidth, -⟩, -, -⟩ := Params.refusal_eq_none_iff.mp hp
  cases ph with
  | idle => exact absurd rfl hbusy
  | preMark => exact .inr (by simp [nextPhase, InFrame, hf])
  | preGap => exact .inr ⟨nofun, hf, fun _ => hwidth, fun hmark => absurd rfl hmark⟩
  | bitMark => exact .inr (by simpa [nextPhase, InFrame, hf] using hbit)
  | bitGap =>
    have hi : i < p.nbits := hbit (.inr rfl)
    by_cases hmore : i + 1 < p.nbits
    · exact .inr (by simp [nextPhase, InFrame, hf, hmore])
    · have hlast : i + 1 = p.nbits := by omega
      exact .inr (by simp [nextPhase, InFrame, hf, hlast])
  | trlMark => exact .inr (by simp [nextPhase, InFrame, hf])
  | trlGap =>
    by_cases hmore : f + 1 < p.frames
    · exact .inr (by simp [nextPhase, InFrame, hmore])
    · have hlast : f + 1 = p.frames := by omega
      exact .inl ⟨rfl, by simp [nextPhase, hlast]⟩

/-- In `IDLE` the invariants are clause (a) of 10_state.md R29. -/
theorem Encoder.inv_of_idle (hidle : e.phase = .idle)
    (h : e.rem = 0#_ ∧ e.bit = 0#_ ∧ e.frame = 0#1 ∧ e.irOut = false) : e.Inv p := by
  obtain ⟨-, hbit, -, -⟩ := id h
  refine ⟨fun _ => h, fun hbusy => absurd hidle hbusy, ?_, fun _ _ => hbit⟩
  rw [hidle]
  exact nofun

/-- The encoder invariants hold after reset (10_state.md R29, R42). -/
theorem Encoder.reset_inv : (Encoder.reset p).Inv p :=
  Encoder.inv_of_idle rfl ⟨rfl, rfl, rfl, rfl⟩

/-- A bit index below `NBITS` fits in `enc_bit` (10_state.md R24). -/
theorem Params.lt_two_pow_bitWidth {i : Nat} (hi : i < p.nbits) : i < 2 ^ p.bitWidth := by
  have hlog : p.nbits - 1 < 2 ^ p.bitWidth := Nat.lt_log2_self
  omega

/-- Entering a phase at a place in a frame gives the invariants: every register is written from that
place, within its width (10_state.md R29). -/
theorem Encoder.enter_inv (hp : p.refusal = none) {ph : Phase} {i f : Nat} (hbusy : ph ≠ .idle)
    (h : InFrame p ph i f) : (e.enter p ph i f).1.Inv p := by
  obtain ⟨hf, hbit, hzero⟩ := h
  obtain ⟨-, -, hopen⟩ := Params.refusal_eq_none_iff.mp hp
  obtain ⟨-, -, hframes, -⟩ := OpenParams.bounds_of_accepted hopen
  obtain ⟨hlow, hfits⟩ := phaseDur_bounds hopen e.payload hbusy i
  obtain ⟨l, hl⟩ := Option.ne_none_iff_exists'.mp (mt phaseLevel_eq_none_iff.mp hbusy)
  have hi : i < 2 ^ p.bitWidth := by
    by_cases hb : ph = .bitMark ∨ ph = .bitGap
    · exact Params.lt_two_pow_bitWidth (hbit hb)
    · obtain ⟨hmark, hgap⟩ := not_or.mp hb
      rw [hzero hmark hgap]
      exact Nat.two_pow_pos _
  have hbitVal : (BitVec.ofNat p.bitWidth i).toNat = i := Nat.mod_eq_of_lt hi
  have hframeVal : (BitVec.ofNat 1 f).toNat = f := Nat.mod_eq_of_lt (by omega)
  have hremVal : (BitVec.ofNat p.cntW (phaseDur p e.payload ph i)).toNat =
      phaseDur p e.payload ph i := Nat.mod_eq_of_lt hfits
  rw [Encoder.enter_of_level e hl]
  refine ⟨fun hidle => absurd hidle hbusy, fun _ => ⟨?_, ?_, hl, ?_⟩, ?_, ?_⟩
  · rw [hremVal]; exact hlow
  · rw [hremVal, hbitVal]
  · rw [hframeVal]; exact hf
  · rw [hbitVal]; exact hbit
  · intro hmark hgap
    rw [hzero hmark hgap]

/-- Entering `IDLE` from a gap gives the invariants: the level 0 of the gap stays (10_state.md R29 a). -/
theorem Encoder.enter_idle_inv (hlevel : e.irOut = false) : (e.enter p .idle 0 0).1.Inv p :=
  Encoder.inv_of_idle rfl ⟨rfl, rfl, rfl, hlevel⟩

/-- Counting down inside a phase keeps the invariants: a count of 2 or more stays positive
(10_state.md R29 b). -/
theorem Encoder.Inv.countDown (h : e.Inv p) (hbusy : e.phase ≠ .idle) (hrem : e.rem ≠ 1#_) :
    ({ e with rem := e.rem - 1#_ } : Encoder p).Inv p := by
  obtain ⟨-, hrunning, hbit, hzero⟩ := h
  obtain ⟨hlow, hhigh, hlevel, hframe⟩ := hrunning hbusy
  have hone : (1#p.cntW).toNat = 1 := Nat.mod_eq_of_lt (by have := e.rem.isLt; omega)
  have hsub : (e.rem - 1#_).toNat = e.rem.toNat - 1 := by
    rw [BitVec.toNat_sub_of_le (by rw [BitVec.le_def, hone]; exact hlow), hone]
  have htwo : e.rem.toNat ≠ 1 := fun h1 => hrem (BitVec.eq_of_toNat_eq (h1.trans hone.symm))
  refine ⟨fun hidle => absurd hidle hbusy, fun _ => ⟨?_, ?_, hlevel, hframe⟩, hbit, hzero⟩
  · rw [hsub]; omega
  · rw [hsub]; exact (Nat.sub_le _ _).trans hhigh

/-- A tick keeps the encoder invariants (10_state.md R29). -/
theorem Encoder.tick_inv (hp : p.refusal = none) (h : e.Inv p) : (e.tick p).1.Inv p := by
  rcases e.tick_cases with ⟨-, htick⟩ | ⟨hbusy, hrem, htick⟩ | ⟨hbusy, -, htick⟩ <;> rw [htick]
  · exact h
  · exact h.countDown hbusy hrem
  · rcases nextPhase_inFrame hp (h.inFrame hbusy) hbusy with ⟨hlast, hnext⟩ | ⟨hnext, hplace⟩
    · obtain ⟨-, hrunning, -, -⟩ := h
      obtain ⟨-, -, hlevel, -⟩ := hrunning hbusy
      rw [hlast] at hlevel
      rw [hnext]
      exact Encoder.enter_idle_inv (Option.some.inj hlevel).symm
    · exact Encoder.enter_inv hp hnext hplace

/-- Entering a phase writes `ir_out` exactly when it emits a level (10_state.md R28). -/
theorem Encoder.enter_irOut (ph : Phase) (i f : Nat) :
    (e.enter p ph i f).1.irOut = (e.enter p ph i f).2.getD e.irOut := by
  cases ph <;> rfl

/-- A tick writes `ir_out` exactly when it emits a level (10_state.md R28). -/
theorem Encoder.tick_irOut : (e.tick p).1.irOut = (e.tick p).2.getD e.irOut := by
  rcases e.tick_cases with ⟨-, htick⟩ | ⟨-, -, htick⟩ | ⟨-, -, htick⟩ <;> rw [htick]
  · rfl
  · rfl
  · exact Encoder.enter_irOut _ _ _

end Sys2Proof.Machine
end

section
/-!
PROOFS, family 10_state.md, commands and clock edges: which unit's registers a command reads and writes
(R22), what a step can do to the encoder and to the fixed-width decoder, the form of its response
(R36, R37), and from these O27, O28, O29, O33, O39, O40 and O41.
-/
namespace Sys2Proof.Machine

/-! ### One command -/

/-- Every command completes in every state (60_exceptions.md R182). -/
theorem exec_completes (i : Instr) (s : State) : ∃ t, exec i s = .next t := by
  cases i <;> exact ⟨_, rfl⟩

/-- A decoder's report emits no level. -/
@[simp] theorem Response.report_levelValid (r : Response) (x : RxResult) :
    (r.report x).levelValid = r.levelValid := by
  cases x <;> rfl

/-- A command not addressed to the encoder keeps its registers (10_state.md R22). -/
theorem exec_keeps_enc {i : Instr} {s t : State} (hi : unitOf i ≠ some .encoder)
    (h : exec i s = .next t) : t.enc = s.enc := by
  cases i with
  | encSet payload => exact absurd rfl hi
  | encTick => exact absurd rfl hi
  | _ => cases h; rfl

/-- A command not addressed to the encoder emits no level (10_state.md R37). -/
theorem exec_emits_none {i : Instr} {s t : State} (hi : unitOf i ≠ some .encoder)
    (h : exec i s = .next t) : t.resp.levelValid = false := by
  cases i with
  | nop => cases h; rfl
  | encSet payload => exact absurd rfl hi
  | encTick => exact absurd rfl hi
  | fixRx byte => cases h; exact Response.report_levelValid _ _
  | contRx byte => cases h; exact Response.report_levelValid _ _

/-- A command not addressed to the fixed-width decoder keeps its registers (10_state.md R22). -/
theorem exec_keeps_fx {i : Instr} {s t : State} (hi : unitOf i ≠ some .fixedDecoder)
    (h : exec i s = .next t) : t.fx = s.fx := by
  cases i with
  | fixRx byte => exact absurd rfl hi
  | _ => cases h; rfl

/-- A command not addressed to the continuation decoder keeps its registers (10_state.md R22). -/
theorem exec_keeps_ct {i : Instr} {s t : State} (hi : unitOf i ≠ some .contDecoder)
    (h : exec i s = .next t) : t.ct = s.ct := by
  cases i with
  | contRx byte => exact absurd rfl hi
  | _ => cases h; rfl

/-- A command leaves the host's coming inputs. -/
theorem exec_keeps_inputs {i : Instr} {s t : State} (h : exec i s = .next t) :
    t.inputs = s.inputs := by
  cases i <;> cases h <;> rfl

/-- What a command reads: from two states that agree on its unit's registers it gives the same response
and the same registers of that unit (10_state.md R22). -/
theorem exec_reads_own_unit {i : Instr} {s s' t t' : State}
    (henc : unitOf i = some .encoder → s.enc = s'.enc)
    (hfx : unitOf i = some .fixedDecoder → s.fx = s'.fx)
    (hct : unitOf i = some .contDecoder → s.ct = s'.ct)
    (h : exec i s = .next t) (h' : exec i s' = .next t') :
    t.resp = t'.resp ∧ (unitOf i = some .encoder → t.enc = t'.enc) ∧
      (unitOf i = some .fixedDecoder → t.fx = t'.fx) ∧
      (unitOf i = some .contDecoder → t.ct = t'.ct) := by
  cases i with
  | nop =>
    cases h; cases h'
    exact ⟨rfl, nofun, nofun, nofun⟩
  | encSet payload =>
    cases h; cases h'
    exact ⟨rfl, fun _ => rfl, nofun, nofun⟩
  | encTick =>
    rw [exec_encTick] at h h'
    cases h; cases h'
    simp [henc rfl, unitOf]
  | fixRx byte =>
    rw [exec_fixRx] at h h'
    cases h; cases h'
    simp [hfx rfl, unitOf]
  | contRx byte =>
    rw [exec_contRx] at h h'
    cases h; cases h'
    simp [hct rfl, unitOf]

/-- Settles O41: `exec_completes`, what a command reads, and what it keeps of each other unit. -/
theorem unitsShareNoState : Obligations.UnitsShareNoState := by
  intro i s s' henc hfx hct
  obtain ⟨t, ht⟩ := exec_completes i s
  obtain ⟨t', ht'⟩ := exec_completes i s'
  obtain ⟨hresp, henc', hfx', hct'⟩ := exec_reads_own_unit henc hfx hct ht ht'
  exact ⟨t, t', ht, ht', hresp, henc', hfx', hct', fun hi => exec_keeps_enc hi ht,
    fun hi => exec_keeps_fx hi ht, fun hi => exec_keeps_ct hi ht, exec_keeps_inputs ht⟩

/-! ### One step -/

/-- The four things a step can do: those of an edge, on the sample placed for it. -/
theorem step_cases {s t : State} (h : step s = .next t) :
    (s.sample.rst = true ∧ t = s.consume.resetEdge) ∨
    (s.sample.rst = false ∧ t = s.consume.idleEdge) ∨
    (s.sample.rst = false ∧ s.sample.cmdValid = true ∧
      ∃ i, decode s.sample.cmd = .ok i ∧ exec i s.consume = .next t) ∨
    (s.sample.rst = false ∧ t = s.consume.illegalCommand s.sample.cmd) := by
  rw [step_eq] at h
  rcases clockEdge_cases s.sample s.consume with
    ⟨hrst, hedge⟩ | ⟨hrst, -, hedge⟩ | ⟨hrst, hcmd, i, hi, hedge⟩ | ⟨hrst, -, e, -, hedge⟩ <;>
    rw [hedge] at h
  · exact .inl ⟨hrst, (Host.Outcome.next.inj h).symm⟩
  · exact .inr (.inl ⟨hrst, (Host.Outcome.next.inj h).symm⟩)
  · exact .inr (.inr (.inl ⟨hrst, hcmd, i, hi, h⟩))
  · exact .inr (.inr (.inr ⟨hrst, (Host.Outcome.next.inj h).symm⟩))

/-- What a step can do to the encoder: reset it; keep it and emit nothing; set a payload; tick. -/
theorem step_enc_cases {s t : State} (h : step s = .next t) :
    (s.sample.rst = true ∧ t.enc = Encoder.reset Config.hardware) ∨
    (t.enc = s.enc ∧ t.resp.levelValid = false) ∨
    (∃ payload, s.sample.cmdValid = true ∧ decode s.sample.cmd = .ok (.encSet payload) ∧
      t.enc = (Encoder.setValue Config.hardware payload).1 ∧
      t.resp = (Response.accepted 0x1#4).emitLevel true) ∨
    (t.enc = (s.enc.tick Config.hardware).1 ∧
      t.resp = (Response.accepted 0x2#4).emitLevel? (s.enc.tick Config.hardware).2) := by
  rcases step_cases h with ⟨hrst, rfl⟩ | ⟨-, rfl⟩ | ⟨-, hcmd, i, hdec, hexec⟩ | ⟨-, rfl⟩
  · exact .inl ⟨hrst, rfl⟩
  · exact .inr (.inl ⟨rfl, rfl⟩)
  · by_cases hi : unitOf i = some .encoder
    · cases i with
      | encSet payload =>
        rw [exec_encSet] at hexec
        cases hexec
        exact .inr (.inr (.inl ⟨payload, hcmd, hdec, rfl, rfl⟩))
      | encTick =>
        rw [exec_encTick] at hexec
        cases hexec
        exact .inr (.inr (.inr ⟨rfl, rfl⟩))
      | nop | fixRx | contRx => exact nomatch hi
    · exact .inr (.inl ⟨exec_keeps_enc (s := s.consume) hi hexec, exec_emits_none hi hexec⟩)
  · exact .inr (.inl ⟨rfl, rfl⟩)

/-- What a step can do to the fixed-width decoder: reset it; keep it; receive a byte. -/
theorem step_fx_cases {s t : State} (h : step s = .next t) :
    t.fx = FixDecoder.reset ∨ t.fx = s.fx ∨
    ∃ byte, t.fx = (s.fx.receive Config.hardware byte).1 := by
  rcases step_cases h with ⟨-, rfl⟩ | ⟨-, rfl⟩ | ⟨-, -, i, -, hexec⟩ | ⟨-, rfl⟩
  · exact .inl rfl
  · exact .inr (.inl rfl)
  · by_cases hi : unitOf i = some .fixedDecoder
    · cases i with
      | fixRx byte =>
        rw [exec_fixRx] at hexec
        cases hexec
        exact .inr (.inr ⟨byte, rfl⟩)
      | nop | encSet | encTick | contRx => exact nomatch hi
    · exact .inr (.inl (exec_keeps_fx (s := s.consume) hi hexec))
  · exact .inr (.inl rfl)

/-! ### The encoder's registers over a step -/

/-- Settles O27: the three encoders a step without reset can leave are within R29, each by its own
lemma. -/
theorem everyStepKeepsTheEncoderInvariants : Obligations.EveryStepKeepsTheEncoderInvariants := by
  refine ⟨Encoder.reset_inv, fun s t hinv h => ?_⟩
  rcases step_enc_cases h with ⟨-, he⟩ | ⟨he, -⟩ | ⟨payload, -, -, he, -⟩ | ⟨he, -⟩ <;> rw [he]
  · exact Encoder.reset_inv
  · exact hinv
  · exact Encoder.setValue_inv payload
  · exact Encoder.tick_inv Config.hardware_refusal hinv

/-- The level read off a response that has one only if an operation returned one. -/
theorem Response.level_of_emitLevel? (op : Op) (l? : Option Bool) (held : Bool) :
    (if ((Response.accepted op).emitLevel? l?).levelValid then
      ((Response.accepted op).emitLevel? l?).level else held) = l?.getD held := by
  cases l? <;> rfl

/-- Settles O28: `ir_out` is written exactly by the encoder operations that emit. -/
theorem outputLevelFollowsEmissions : Obligations.OutputLevelFollowsEmissions := by
  intro s t hrst h
  rcases step_enc_cases h with ⟨hreset, -⟩ | ⟨he, hquiet⟩ | ⟨payload, -, -, he, hresp⟩ | ⟨he, hresp⟩
  · exact absurd (hrst.symm.trans hreset) Bool.false_ne_true
  · simp [he, hquiet]
  · rw [he, hresp]; rfl
  · rw [he, hresp, Response.level_of_emitLevel?, Encoder.tick_irOut]

/-- Settles O29: of the steps without a reset only `ENC_SET` gives another payload, its own. -/
theorem payloadWrittenOnlyByEncSet : Obligations.PayloadWrittenOnlyByEncSet := by
  intro s t hrst h hne
  rcases step_enc_cases h with ⟨hreset, -⟩ | ⟨he, -⟩ | ⟨payload, hcmd, hdec, he, -⟩ | ⟨he, -⟩
  · exact absurd (hrst.symm.trans hreset) Bool.false_ne_true
  · exact absurd (congrArg Encoder.payload he) hne
  · rw [he]; exact ⟨hcmd, hdec⟩
  · rw [he] at hne; exact absurd s.enc.tick_payload hne

/-! ### The fixed-width accumulator -/

/-- The accumulator of the reset decoder is within its bound (10_state.md R31, R42). -/
theorem FixDecoder.reset_inv : FixDecoder.reset.Inv := ⟨nofun, nofun, nofun⟩

/-- Placing the next byte above `k` bytes gives a value of `k + 1` bytes (41_fixed_decoder.md R133). -/
theorem placeByte_lt {acc : Word} {k : Nat} (hk : k ≤ 3) (h : acc.toNat < 2 ^ (8 * k))
    (byte : Byte) : (placeByte acc k byte).toNat < 2 ^ (8 * (k + 1)) := by
  have hbyte : byte.toNat * 2 ^ (8 * k) ≤ 255 * 2 ^ (8 * k) :=
    Nat.mul_le_mul_right _ (Nat.le_of_lt_succ byte.isLt)
  have hpow : 2 ^ (8 * (k + 1)) = 256 * 2 ^ (8 * k) := by
    rw [Nat.mul_succ, Nat.pow_add, Nat.mul_comm]
  rw [placeByte_toNat hk h, hpow]
  omega

/-- A byte alone in the accumulator is a value of one byte (41_fixed_decoder.md R133). -/
theorem zext32_lt (byte : Byte) : (zext32 byte).toNat < 2 ^ 8 := by
  rw [zext32, BitVec.toNat_setWidth]
  exact (Nat.mod_le _ _).trans_lt byte.isLt

/-- One byte keeps the bound on the fixed-width accumulator (10_state.md R31). -/
theorem FixDecoder.receive_inv {p : Params} {d : FixDecoder} (byte : Byte) (h : d.Inv) :
    (d.receive p byte).1.Inv := by
  obtain ⟨h0, h1, h2⟩ := id h
  rcases d.receive_cases (p := p) byte with ⟨-, -, hr⟩ | ⟨-, -, hr⟩ | ⟨-, -, hr⟩ | ⟨-, -, hr⟩ |
    ⟨-, hr⟩ | ⟨hst, hr⟩ | ⟨hst, hr⟩ | ⟨-, hr⟩ <;> rw [hr]
  · exact ⟨nofun, nofun, nofun⟩
  · exact h
  · exact ⟨nofun, nofun, nofun⟩
  · exact ⟨nofun, nofun, nofun⟩
  · exact ⟨fun _ => zext32_lt byte, nofun, nofun⟩
  · exact ⟨nofun, fun _ => placeByte_lt (k := 1) (by decide) (h0 hst) byte, nofun⟩
  · exact ⟨nofun, nofun, fun _ => placeByte_lt (k := 2) (by decide) (h1 hst) byte⟩
  · exact ⟨nofun, nofun, nofun⟩

/-- Settles O33: a reset, a decoder kept, or one byte more. -/
theorem everyStepKeepsTheFixedAccumulatorBound :
    Obligations.EveryStepKeepsTheFixedAccumulatorBound := by
  intro s t hinv h
  rcases step_fx_cases h with hfx | hfx | ⟨byte, hfx⟩ <;> rw [hfx]
  · exact FixDecoder.reset_inv
  · exact hinv
  · exact FixDecoder.receive_inv byte hinv

/-! ### The form of a response -/

/-- The record of a cycle without a command (10_state.md R36). -/
theorem Response.silent_inv : Response.silent.Inv := by simp [Response.Inv]

/-- A command's record before a primitive sets a field (10_state.md R37). -/
theorem Response.accepted_inv (op : Op) : (Response.accepted op).Inv := by simp [Response.Inv]

/-- The report of an illegal word (60_exceptions.md R181). -/
theorem Response.illegal_inv (op : Op) : ((Response.accepted op).raise .illegalCommand).Inv := by
  simp [Response.Inv]

/-- An encoder command's response, with a level or without (10_state.md R37). -/
theorem Response.emitLevel?_inv {op : Op} (hop : op = 0x1#4 ∨ op = 0x2#4) (l? : Option Bool) :
    ((Response.accepted op).emitLevel? l?).Inv := by
  cases l? with
  | none => exact Response.accepted_inv op
  | some l => simp [Response.Inv, hop]

/-- A decoder command's response, whatever the decoder reports (10_state.md R37,
60_exceptions.md R182). -/
theorem Response.report_inv {op : Op} (hop : op = 0x3#4 ∨ op = 0x4#4) (x : RxResult) :
    ((Response.accepted op).report x).Inv := by
  cases x with
  | quiet => exact Response.accepted_inv op
  | value v => simp [Response.Inv, hop]
  | framingError => simp [Response.Inv, hop]

/-- Every command's response has its form. -/
theorem exec_resp_inv {i : Instr} {s t : State} (h : exec i s = .next t) : t.resp.Inv := by
  cases i with
  | nop => cases h; exact Response.accepted_inv _
  | encSet payload => cases h; exact Response.emitLevel?_inv (.inl rfl) (some true)
  | encTick => cases h; exact Response.emitLevel?_inv (.inr rfl) _
  | fixRx byte => cases h; exact Response.report_inv (.inl rfl) _
  | contRx byte => cases h; exact Response.report_inv (.inr rfl) _

/-- Settles O39: a silent response, a command's, or an illegal word's. -/
theorem everyResponseIsOfItsForm : Obligations.EveryResponseIsOfItsForm := by
  intro s t h
  rcases step_cases h with ⟨-, rfl⟩ | ⟨-, rfl⟩ | ⟨-, -, i, -, hexec⟩ | ⟨-, rfl⟩
  · exact Response.silent_inv
  · exact Response.silent_inv
  · exact exec_resp_inv hexec
  · exact Response.illegal_inv _

/-- Settles O40: the three invariants at the reset values. -/
theorem resetMeetsTheBlockInvariant : Obligations.ResetMeetsTheBlockInvariant :=
  ⟨Encoder.reset_inv, FixDecoder.reset_inv, Response.silent_inv⟩

end Sys2Proof.Machine
end

section
/-!
PROOFS, family 10_state.md, what no output shows: the agreement of O44 unit by unit, kept by every
operation of a unit, by every command and by every step, and so by every run.
-/
namespace Sys2Proof.Machine

/-! ### Agreement, unit by unit -/

/-- Two encoders no output can tell apart: in `IDLE` only `ir_out` shows (10_state.md R41). -/
def Encoder.SameVisible {p : Params} (e e' : Encoder p) : Prop :=
  e.phase = e'.phase ∧ e.irOut = e'.irOut ∧ (e.phase ≠ .idle → e = e')

/-- Two fixed-width decoders no output can tell apart: the accumulator counts while it is being built
(10_state.md R31). -/
def FixDecoder.SameVisible (d d' : FixDecoder) : Prop :=
  d.st = d'.st ∧ (d.st = .acc0 ∨ d.st = .acc1 ∨ d.st = .acc2 → d.acc = d'.acc)

/-- Two continuation decoders no output can tell apart: the accumulator counts in `CT_RECEIVING`
(10_state.md R33). -/
def ContDecoder.SameVisible (d d' : ContDecoder) : Prop :=
  d.st = d'.st ∧ (d.st = .receiving → d.acc = d'.acc)

/-- The agreement of two states is that of their responses, inputs and units. -/
theorem State.sameVisible_iff {s t : State} :
    s.SameVisible t ↔ s.resp = t.resp ∧ s.inputs = t.inputs ∧
      s.enc.SameVisible t.enc ∧ s.fx.SameVisible t.fx ∧ s.ct.SameVisible t.ct := by
  simp only [State.SameVisible, Encoder.SameVisible, FixDecoder.SameVisible,
    ContDecoder.SameVisible, and_assoc]

theorem Encoder.SameVisible.refl {p : Params} (e : Encoder p) : e.SameVisible e :=
  ⟨rfl, rfl, fun _ => rfl⟩

theorem FixDecoder.SameVisible.refl (d : FixDecoder) : d.SameVisible d := ⟨rfl, fun _ => rfl⟩

theorem ContDecoder.SameVisible.refl (d : ContDecoder) : d.SameVisible d := ⟨rfl, fun _ => rfl⟩

/-- The output ports read only what agreeing states share (10_state.md R34, R41). -/
theorem State.SameVisible.outputs_eq {s t : State} (h : s.SameVisible t) :
    s.outputs = t.outputs := by
  obtain ⟨hresp, -, ⟨hphase, hir, -⟩, -, -⟩ := State.sameVisible_iff.mp h
  simp only [State.outputs, Encoder.isIdle, hresp, hphase, hir]

/-! ### Each unit's operation -/

/-- In `IDLE` a tick does nothing (40_encoder.md R107). -/
theorem Encoder.tick_idle {p : Params} {e : Encoder p} (hidle : e.phase = .idle) :
    e.tick p = (e, none) := if_pos hidle

/-- A tick returns the same level from agreeing encoders and leaves them agreeing: outside `IDLE` they
are equal, and in `IDLE` it does nothing. -/
theorem Encoder.SameVisible.tick {p : Params} {e e' : Encoder p} (h : e.SameVisible e') :
    (e.tick p).2 = (e'.tick p).2 ∧ (e.tick p).1.SameVisible (e'.tick p).1 := by
  by_cases hidle : e.phase = .idle
  · obtain ⟨hphase, -, -⟩ := id h
    rw [Encoder.tick_idle hidle, Encoder.tick_idle (hphase.symm.trans hidle)]
    exact ⟨rfl, h⟩
  · obtain ⟨-, -, heq⟩ := h
    rw [heq hidle]
    exact ⟨rfl, Encoder.SameVisible.refl _⟩

/-- A byte makes agreeing fixed-width decoders report the same and leaves them agreeing: a state that
reads the accumulator is one in which it agrees, and any other drops it or passes it on to a state in
which it means nothing. -/
theorem FixDecoder.SameVisible.receive {p : Params} {d d' : FixDecoder} (byte : Byte)
    (h : d.SameVisible d') :
    (d.receive p byte).2 = (d'.receive p byte).2 ∧
      (d.receive p byte).1.SameVisible (d'.receive p byte).1 := by
  obtain ⟨st, acc⟩ := d
  obtain ⟨st', acc'⟩ := d'
  obtain ⟨rfl, hacc⟩ : st = st' ∧ (st = .acc0 ∨ st = .acc1 ∨ st = .acc2 → acc = acc') := h
  cases st with
  | idle =>
    by_cases hb : byte = p.fxMagic1 <;> simp [FixDecoder.receive, FixDecoder.SameVisible, hb]
  | sawM1 =>
    by_cases hb : byte = p.fxMagic2 <;> simp [FixDecoder.receive, FixDecoder.SameVisible, hb]
  | sawM2 => exact ⟨rfl, FixDecoder.SameVisible.refl _⟩
  | acc0 => cases hacc (.inl rfl); exact ⟨rfl, FixDecoder.SameVisible.refl _⟩
  | acc1 => cases hacc (.inr (.inl rfl)); exact ⟨rfl, FixDecoder.SameVisible.refl _⟩
  | acc2 => cases hacc (.inr (.inr rfl)); exact ⟨rfl, FixDecoder.SameVisible.refl _⟩

/-- A byte makes agreeing continuation decoders report the same and leaves them agreeing: the
accumulator is cleared on entering `CT_RECEIVING`. -/
theorem ContDecoder.SameVisible.receive {p : Params} {d d' : ContDecoder} (byte : Byte)
    (h : d.SameVisible d') :
    (d.receive p byte).2 = (d'.receive p byte).2 ∧
      (d.receive p byte).1.SameVisible (d'.receive p byte).1 := by
  obtain ⟨st, acc⟩ := d
  obtain ⟨st', acc'⟩ := d'
  obtain ⟨rfl, hacc⟩ : st = st' ∧ (st = .receiving → acc = acc') := h
  cases st with
  | begin =>
    by_cases hb : byte = p.ctBeginByte <;> simp [ContDecoder.receive, ContDecoder.SameVisible, hb]
  | magicSeen =>
    by_cases hb : byte = p.ctConfirmByte <;>
      simp [ContDecoder.receive, ContDecoder.SameVisible, hb]
  | receiving => cases hacc rfl; exact ⟨rfl, ContDecoder.SameVisible.refl _⟩

/-! ### Commands, steps, runs -/

/-- A command keeps the agreement. -/
theorem exec_sameVisible (i : Instr) {s t : State} (h : s.SameVisible t) :
    ∃ s' t', exec i s = .next s' ∧ exec i t = .next t' ∧ s'.SameVisible t' := by
  obtain ⟨-, hin, henc, hfx, hct⟩ := State.sameVisible_iff.mp h
  cases i with
  | nop =>
    exact ⟨_, _, exec_nop s, exec_nop t,
      State.sameVisible_iff.mpr ⟨rfl, hin, henc, hfx, hct⟩⟩
  | encSet payload =>
    exact ⟨_, _, exec_encSet payload s, exec_encSet payload t,
      State.sameVisible_iff.mpr ⟨rfl, hin, Encoder.SameVisible.refl _, hfx, hct⟩⟩
  | encTick =>
    obtain ⟨hlevel, henc'⟩ := henc.tick
    exact ⟨_, _, exec_encTick s, exec_encTick t,
      State.sameVisible_iff.mpr ⟨by rw [hlevel], hin, henc', hfx, hct⟩⟩
  | fixRx byte =>
    obtain ⟨hreport, hfx'⟩ := hfx.receive (p := Config.hardware) byte
    exact ⟨_, _, exec_fixRx byte s, exec_fixRx byte t,
      State.sameVisible_iff.mpr ⟨by rw [hreport], hin, henc, hfx', hct⟩⟩
  | contRx byte =>
    obtain ⟨hreport, hct'⟩ := hct.receive (p := Config.hardware) byte
    exact ⟨_, _, exec_contRx byte s, exec_contRx byte t,
      State.sameVisible_iff.mpr ⟨by rw [hreport], hin, henc, hfx, hct'⟩⟩

/-- Accepting one word, legal or not, keeps the agreement. -/
theorem accept_sameVisible (w : Word) {s t : State} (h : s.SameVisible t) :
    ∃ s' t', accept w s = .next s' ∧ accept w t = .next t' ∧ s'.SameVisible t' := by
  unfold accept
  cases decode w with
  | ok i => exact exec_sameVisible i h
  | error e =>
    obtain ⟨-, hin, henc, hfx, hct⟩ := State.sameVisible_iff.mp h
    exact ⟨_, _, rfl, rfl, State.sameVisible_iff.mpr ⟨rfl, hin, henc, hfx, hct⟩⟩

/-- The edge on one sample keeps the agreement. -/
theorem clockEdge_sameVisible (q : PortIn) {s t : State} (h : s.SameVisible t) :
    ∃ s' t', clockEdge q s = .next s' ∧ clockEdge q t = .next t' ∧ s'.SameVisible t' := by
  obtain ⟨-, hin, henc, hfx, hct⟩ := State.sameVisible_iff.mp h
  obtain ⟨rst, cmdValid, w⟩ := q
  cases rst with
  | true =>
    exact ⟨_, _, rfl, rfl, State.sameVisible_iff.mpr ⟨rfl, hin, Encoder.SameVisible.refl _,
      FixDecoder.SameVisible.refl _, ContDecoder.SameVisible.refl _⟩⟩
  | false =>
    cases cmdValid with
    | false => exact ⟨_, _, rfl, rfl, State.sameVisible_iff.mpr ⟨rfl, hin, henc, hfx, hct⟩⟩
    | true => exact accept_sameVisible w h

/-- A step keeps the agreement: agreeing states have the same inputs to come. -/
theorem step_sameVisible {s t : State} (h : s.SameVisible t) :
    ∃ s' t', step s = .next s' ∧ step t = .next t' ∧ s'.SameVisible t' := by
  obtain ⟨hresp, hin, henc, hfx, hct⟩ := State.sameVisible_iff.mp h
  have hconsume : s.consume.SameVisible t.consume :=
    State.sameVisible_iff.mpr ⟨hresp, congrArg List.tail hin, henc, hfx, hct⟩
  have hsample : s.sample = t.sample := by rw [State.sample, State.sample, hin]
  rw [step_eq, step_eq, hsample]
  exact clockEdge_sameVisible t.sample hconsume

/-- A relation that every step keeps is kept by every run. -/
theorem run_keeps_relation {R : State → State → Prop}
    (hstep : ∀ s t, R s t → ∃ s' t', step s = .next s' ∧ step t = .next t' ∧ R s' t')
    (n : Nat) {s t : State} (h : R s t) :
    ∃ s' t', Sys2Proof.core.run n s = .next s' ∧ Sys2Proof.core.run n t = .next t' ∧ R s' t' := by
  induction n generalizing s t with
  | zero => exact ⟨s, t, rfl, rfl, h⟩
  | succ n ih =>
    obtain ⟨s', t', hs, ht, h'⟩ := hstep s t h
    rw [run_succ_of_next n hs, run_succ_of_next n ht]
    exact ih h'

/-- Settles O44: the agreement is kept by every run, and agreeing states show the same outputs. -/
theorem meaninglessRegistersAreNeverObserved :
    Obligations.MeaninglessRegistersAreNeverObserved := by
  intro s t n h
  obtain ⟨s', t', hs, ht, h'⟩ := run_keeps_relation (fun _ _ => step_sameVisible) n h
  exact ⟨s', t', hs, ht, h'.outputs_eq, h'⟩

end Sys2Proof.Machine
end

section
/-!
PROOFS, family 10_state.md, the remaining statements: idle edges (R36), the output ports (R34), the reset
values (R42), the codes of the state registers (R23, R30, R32) and the unreachable ones (R43).
-/
namespace Sys2Proof.Machine

/-! ### Idle edges, output ports, reset values -/

/-- An edge at which nothing is offered. -/
theorem step_of_idle {s : State} {q : PortIn} {rest : List PortIn} (hin : s.inputs = q :: rest)
    (hrst : q.rst = false) (hcmd : q.cmdValid = false) :
    step s = .next { s with resp := Response.silent, inputs := rest } := by
  rw [step_eq, State.sample_of_inputs hin, State.consume_of_inputs hin]
  simp [clockEdge, State.idleEdge, hrst, hcmd]

/-- Idle edges under a silent response only consume their samples. -/
theorem run_idle_of_silent {s : State} (ps : List PortIn) {rest : List PortIn}
    (hidle : ∀ p ∈ ps, p.rst = false ∧ p.cmdValid = false) (hin : s.inputs = ps ++ rest)
    (hresp : s.resp = Response.silent) :
    Sys2Proof.core.run ps.length s = .next { s with inputs := rest } := by
  induction ps generalizing s with
  | nil =>
    obtain ⟨enc, fx, ct, resp, inputs⟩ := s
    cases hin
    rfl
  | cons q ps ih =>
    obtain ⟨⟨hrst, hcmd⟩, htail⟩ := List.forall_mem_cons.mp hidle
    rw [List.length_cons, run_succ_of_next _ (step_of_idle hin hrst hcmd), ih htail rfl rfl, hresp]

/-- Settles O3: the first idle edge silences the response, the later ones change nothing more. -/
theorem idleEdgesHoldRegistersAndSilenceResponse :
    Obligations.IdleEdgesHoldRegistersAndSilenceResponse := by
  intro s ps rest hne hidle hin
  cases ps with
  | nil => exact absurd rfl hne
  | cons q ps =>
    obtain ⟨⟨hrst, hcmd⟩, htail⟩ := List.forall_mem_cons.mp hidle
    rw [List.length_cons, run_succ_of_next _ (step_of_idle hin hrst hcmd),
      run_idle_of_silent ps htail rfl rfl]
    rfl

/-- Settles O8: each output port by its own lemma. -/
theorem outputPortsShowLevelAndIdle : Obligations.OutputPortsShowLevelAndIdle :=
  fun s => ⟨s.outputs_irOut, s.enc.isIdle_iff, s.outputs_resp⟩

/-- Settles O1: the reset values written out are the ones R42 gives. -/
theorem resetValuesOfEveryRegister : Obligations.ResetValuesOfEveryRegister :=
  ⟨rfl, rfl, rfl, rfl⟩

/-! ### Codes -/

/-- A code that names a phase is that phase's. -/
theorem eq_phaseCode_of_phaseOfCode {c : BitVec 3} {ph : Phase} :
    phaseOfCode c = some ph → c = phaseCode ph := by
  cases ph <;> revert c <;> decide

/-- A code that names a state of the fixed-width decoder is that state's. -/
theorem eq_fxCode_of_fxOfCode {c : BitVec 3} {st : FxState} :
    fxOfCode c = some st → c = fxCode st := by
  cases st <;> revert c <;> decide

/-- A code that names a state of the continuation decoder is that state's. -/
theorem eq_ctCode_of_ctOfCode {c : BitVec 2} {st : CtState} :
    ctOfCode c = some st → c = ctCode st := by
  cases st <;> revert c <;> decide

/-- Settles O45: the code of each state names it back, and a code names no second state; the codes that
name none are read off the eight or four of them. -/
theorem stateCodesNameEveryStateOnce : Obligations.StateCodesNameEveryStateOnce := by
  refine ⟨fun c ph => ⟨eq_phaseCode_of_phaseOfCode, ?_⟩,
    fun c st => ⟨eq_fxCode_of_fxOfCode, ?_⟩, fun c st => ⟨eq_ctCode_of_ctOfCode, ?_⟩,
    by decide, by decide, by decide⟩
  · rintro rfl; exact phaseOfCode_phaseCode ph
  · rintro rfl; exact fxOfCode_fxCode st
  · rintro rfl; exact ctOfCode_ctCode st

/-! ### Unreachable codes -/

/-- Any commands complete, and what each of them keeps stands at the end. -/
theorem execAll_keeps {P : State → Prop} {is : List Instr} {s : State}
    (hkeep : ∀ i ∈ is, ∀ u t, exec i u = .next t → P u → P t) (h : P s) :
    ∃ t, execAll is s = .next t ∧ P t := by
  induction is generalizing s with
  | nil => exact ⟨s, rfl, h⟩
  | cons i is ih =>
    obtain ⟨hi, htail⟩ := List.forall_mem_cons.mp hkeep
    obtain ⟨u, hu⟩ := exec_completes i s
    rw [execAll_cons_of_next is hu]
    exact ih htail (hi s u hu h)

/-- Commands to the other units keep the encoder's registers (10_state.md R22). -/
theorem execAll_keeps_enc {is : List Instr} (s : State)
    (hother : ∀ i ∈ is, unitOf i ≠ some .encoder) :
    ∃ t, execAll is s = .next t ∧ t.enc = s.enc :=
  execAll_keeps (P := fun u => u.enc = s.enc)
    (fun i hi _ _ h hu => (exec_keeps_enc (hother i hi) h).trans hu) rfl

/-- Commands to the other units keep the fixed-width decoder's registers (10_state.md R22). -/
theorem execAll_keeps_fx {is : List Instr} (s : State)
    (hother : ∀ i ∈ is, unitOf i ≠ some .fixedDecoder) :
    ∃ t, execAll is s = .next t ∧ t.fx = s.fx :=
  execAll_keeps (P := fun u => u.fx = s.fx)
    (fun i hi _ _ h hu => (exec_keeps_fx (hother i hi) h).trans hu) rfl

/-- Commands to the other units keep the continuation decoder's registers (10_state.md R22). -/
theorem execAll_keeps_ct {is : List Instr} (s : State)
    (hother : ∀ i ∈ is, unitOf i ≠ some .contDecoder) :
    ∃ t, execAll is s = .next t ∧ t.ct = s.ct :=
  execAll_keeps (P := fun u => u.ct = s.ct)
    (fun i hi _ _ h hu => (exec_keeps_ct (hother i hi) h).trans hu) rfl

/-- The reset fixed-width decoder takes `FX_MAGIC1` and drops any other byte (41_fixed_decoder.md
R130). -/
theorem FixDecoder.receive_reset (byte : Byte) :
    FixDecoder.reset.receive Config.hardware byte =
      (if byte = 0x53#8 then ⟨.sawM1, 0#32⟩ else ⟨.idle, 0#32⟩, .quiet) := by
  by_cases hb : byte = 0x53#8 <;> simp [FixDecoder.receive, FixDecoder.reset, hb]

/-- The reset continuation decoder takes `CT_BEGIN_BYTE` and reports any other byte
(42_cont_decoder.md R150). -/
theorem ContDecoder.receive_reset (byte : Byte) :
    ContDecoder.reset.receive Config.hardware byte =
      if byte = 0x53#8 then (⟨.magicSeen, 0#32⟩, .quiet) else (⟨.begin, 0#32⟩, .framingError) := by
  by_cases hb : byte = 0x53#8 <;> simp [ContDecoder.receive, ContDecoder.reset, hb]

/-- Settles O46: an unreachable code stands for its unit's reset registers, commands to other units keep
them, and the next command to the unit acts on those. -/
theorem unreachableCodesActAsReset : Obligations.UnreachableCodesActAsReset := by
  intro s encC fxC ctC is
  refine ⟨fun hc hother => ?_, fun hc hother => ?_, fun hc hother => ?_⟩
  · obtain ⟨t, ht, henc⟩ := execAll_keeps_enc (s.ofCodes encC fxC ctC) hother
    rw [State.ofCodes_enc, hc, Encoder.ofCode_unreachable] at henc
    refine ⟨t, ht, fun payload => exec_encSet payload t, ?_⟩
    rw [exec_encTick, henc, Encoder.tick_idle rfl]
    rfl
  · obtain ⟨t, ht, hfx⟩ := execAll_keeps_fx (s.ofCodes encC fxC ctC) hother
    rw [State.ofCodes_fx, FixDecoder.ofCode_unreachable hc] at hfx
    refine ⟨t, ht, fun b => ?_⟩
    rw [exec_fixRx, hfx, FixDecoder.receive_reset]
    rfl
  · obtain ⟨t, ht, hct⟩ := execAll_keeps_ct (s.ofCodes encC fxC ctC) hother
    rw [State.ofCodes_ct, hc, ContDecoder.ofCode_unreachable] at hct
    refine ⟨t, ht, fun b => ?_⟩
    rw [exec_contRx, hct, ContDecoder.receive_reset]
    split <;> rfl

end Sys2Proof.Machine
end

section
/-!
PROOFS, family 20_memory.md. The registers one unit ends with after a sequence are decided by the
commands addressed to it, in their order (R57, 10_state.md R22), and from this O42.
-/
namespace Sys2Proof.Machine

/-- The registers a unit has. -/
def BlockUnit.Registers : BlockUnit → Type
  | .encoder => Encoder Config.hardware
  | .fixedDecoder => FixDecoder
  | .contDecoder => ContDecoder

/-- The registers of one unit in a state. -/
def State.unitRegisters (s : State) : (b : BlockUnit) → b.Registers
  | .encoder => s.enc
  | .fixedDecoder => s.fx
  | .contDecoder => s.ct

/-- The registers of all three units agree exactly when those of each unit do. -/
theorem State.registers_eq_iff {s t : State} :
    s.registers = t.registers ↔ ∀ b, s.unitRegisters b = t.unitRegisters b := by
  constructor
  · intro h b
    obtain ⟨henc, hfx, hct⟩ : s.enc = t.enc ∧ s.fx = t.fx ∧ s.ct = t.ct := by
      simpa [State.registers] using h
    cases b with
    | encoder => exact henc
    | fixedDecoder => exact hfx
    | contDecoder => exact hct
  · intro h
    exact Prod.ext (h .encoder) (Prod.ext (h .fixedDecoder) (h .contDecoder))

/-- A command keeps the registers of every unit it is not addressed to (10_state.md R22). -/
theorem exec_keeps_unitRegisters {b : BlockUnit} {i : Instr} {s t : State}
    (hi : unitOf i ≠ some b) (h : exec i s = .next t) : t.unitRegisters b = s.unitRegisters b := by
  cases b with
  | encoder => exact exec_keeps_enc hi h
  | fixedDecoder => exact exec_keeps_fx hi h
  | contDecoder => exact exec_keeps_ct hi h

/-- What a command makes of its own unit's registers is decided by those registers (10_state.md R22). -/
theorem exec_determines_unitRegisters {b : BlockUnit} {i : Instr} {s s' t t' : State}
    (hi : unitOf i = some b) (hs : s.unitRegisters b = s'.unitRegisters b)
    (h : exec i s = .next t) (h' : exec i s' = .next t') :
    t.unitRegisters b = t'.unitRegisters b := by
  have hown : ∀ c, unitOf i = some c → s.unitRegisters c = s'.unitRegisters c := by
    intro c hc
    cases hi.symm.trans hc
    exact hs
  obtain ⟨-, henc, hfx, hct⟩ :=
    exec_reads_own_unit (hown .encoder) (hown .fixedDecoder) (hown .contDecoder) h h'
  cases b with
  | encoder => exact henc hi
  | fixedDecoder => exact hfx hi
  | contDecoder => exact hct hi

/-- The commands of a sequence that are addressed to a unit, in their order. -/
def commandsTo (b : BlockUnit) (is : List Instr) : List Instr :=
  is.filter fun i => unitOf i = some b

@[simp] theorem commandsTo_append (b : BlockUnit) (is js : List Instr) :
    commandsTo b (is ++ js) = commandsTo b is ++ commandsTo b js :=
  List.filter_append is js

theorem commandsTo_cons_of_addressed {b : BlockUnit} {i : Instr} (is : List Instr)
    (hi : unitOf i = some b) : commandsTo b (i :: is) = i :: commandsTo b is :=
  List.filter_cons_of_pos (by simpa using hi)

theorem commandsTo_cons_of_other {b : BlockUnit} {i : Instr} (is : List Instr)
    (hi : unitOf i ≠ some b) : commandsTo b (i :: is) = commandsTo b is :=
  List.filter_cons_of_neg (by simpa using hi)

/-- A sequence has no command to a unit exactly when each of its commands is addressed elsewhere. -/
theorem commandsTo_eq_nil_iff {b : BlockUnit} {is : List Instr} :
    commandsTo b is = [] ↔ ∀ i ∈ is, unitOf i ≠ some b := by
  simp [commandsTo]

/-- A sequence leaves a unit's registers as its commands to that unit alone do, from any state with the
same registers of the unit (20_memory.md R57, 10_state.md R22). -/
theorem execAll_unitRegisters_commandsTo {b : BlockUnit} (is : List Instr) {s s' : State}
    (hs : s.unitRegisters b = s'.unitRegisters b) :
    ∃ t t', execAll is s = .next t ∧ execAll (commandsTo b is) s' = .next t' ∧
      t.unitRegisters b = t'.unitRegisters b := by
  induction is generalizing s s' with
  | nil => exact ⟨s, s', rfl, rfl, hs⟩
  | cons i is ih =>
    obtain ⟨u, hu⟩ := exec_completes i s
    rw [execAll_cons_of_next is hu]
    by_cases hi : unitOf i = some b
    · obtain ⟨u', hu'⟩ := exec_completes i s'
      rw [commandsTo_cons_of_addressed is hi, execAll_cons_of_next _ hu']
      exact ih (exec_determines_unitRegisters hi hs hu hu')
    · rw [commandsTo_cons_of_other is hi]
      exact ih ((exec_keeps_unitRegisters hi hu).trans hs)

/-- Every sequence of commands completes (60_exceptions.md R182). -/
theorem execAll_completes (is : List Instr) (s : State) : ∃ t, execAll is s = .next t := by
  obtain ⟨t, ht, -⟩ := execAll_keeps (P := fun _ => True) (is := is) (s := s)
    (fun _ _ _ _ _ _ => trivial) trivial
  exact ⟨t, ht⟩

/-- Two sequences with the same commands to each unit give the same registers. -/
theorem execAll_registers_eq_of_commandsTo_eq {is js : List Instr} {s t u : State}
    (h : ∀ b, commandsTo b is = commandsTo b js)
    (ht : execAll is s = .next t) (hu : execAll js s = .next u) : t.registers = u.registers := by
  refine State.registers_eq_iff.mpr fun b => ?_
  obtain ⟨t₁, v, ht₁, hv, htv⟩ := execAll_unitRegisters_commandsTo (b := b) is (s := s) rfl
  obtain ⟨u₁, w, hu₁, hw, huw⟩ := execAll_unitRegisters_commandsTo (b := b) js (s := s) rfl
  cases ht.symm.trans ht₁
  cases hu.symm.trans hu₁
  rw [h b] at hv
  cases hv.symm.trans hw
  exact htv.trans huw.symm

/-- Of two sequences addressed to different units, one has no command to a given unit. -/
theorem commandsTo_eq_nil_or {is js : List Instr}
    (hdiff : ∀ i ∈ is, ∀ j ∈ js, unitOf i = none ∨ unitOf i ≠ unitOf j) (b : BlockUnit) :
    commandsTo b is = [] ∨ commandsTo b js = [] := by
  by_contra hboth
  simp only [commandsTo_eq_nil_iff, not_or, not_forall, not_not] at hboth
  obtain ⟨⟨i, hmem, hi⟩, ⟨j, hmem', hj⟩⟩ := hboth
  rcases hdiff i hmem j hmem' with hnone | hne
  · exact nomatch hnone.symm.trans hi
  · exact hne (hi.trans hj.symm)

/-- Settles O42: in either order each unit gets the same commands, since one of the sequences has none
for it. -/
theorem commandsToDifferentUnitsCommute : Obligations.CommandsToDifferentUnitsCommute := by
  intro is js s hdiff
  obtain ⟨t, ht⟩ := execAll_completes (is ++ js) s
  obtain ⟨u, hu⟩ := execAll_completes (js ++ is) s
  refine ⟨t, u, ht, hu, execAll_registers_eq_of_commandsTo_eq (fun b => ?_) ht hu⟩
  rcases commandsTo_eq_nil_or hdiff b with hnil | hnil <;> simp [hnil]

end Sys2Proof.Machine
end

section
/-!
PROOFS, family 30_encoding.md, the command words: the two fields of a word, what the decoder answers for
each op, and that it accepts exactly the words the encoder writes (R71 to R81); from these O9, O10, O11,
O12 and O13.
-/
namespace Sys2Proof

/-! ### The fields of a word -/

/-- The op is the word's value above bit 28 (30_encoding.md R71). -/
theorem opField_toNat (w : Word) : (opField w).toNat = w.toNat / 2 ^ 28 := by
  have hw := w.isLt
  rw [opField, BitVec.extractLsb'_toNat, Nat.shiftRight_eq_div_pow]
  omega

/-- The operand field is the word's value below bit 28 (30_encoding.md R71). -/
theorem operandField_toNat (w : Word) : (operandField w).toNat = w.toNat % 2 ^ 28 := by
  rw [operandField, BitVec.extractLsb'_toNat, Nat.shiftRight_zero]

/-- A word is its op above its operand field. -/
theorem opField_append_operandField (w : Word) : opField w ++ operandField w = w :=
  BitVec.extractLsb'_append_extractLsb' (w := 4) (len := 28)

/-- The operand field stands at the bottom of any word built from an op and an operand field. -/
theorem operandField_append (o : Op) (x : BitVec 28) : operandField (o ++ x) = x :=
  BitVec.extractLsb'_append_eq_right

/-- A word is a command's exactly when its fields are the command's op and operand. -/
theorem eq_encode_iff_fields {w : Word} {i : Instr} :
    w = encode i ↔ opField w = i.op ∧ operandField w = i.operand := by
  constructor
  · rintro rfl
    exact ⟨Laws.opField_append _ _, operandField_append _ _⟩
  · rintro ⟨hop, hx⟩
    rw [encode, ← hop, ← hx, opField_append_operandField]

/-! ### Reserved bits -/

/-- The reserved bits above `n` operand bits, as a number (30_encoding.md R71). -/
theorem reservedClear_iff {n : Nat} {w : Word} :
    reservedClear n w = true ↔ w.toNat % 2 ^ 28 / 2 ^ n = 0 := by
  rw [reservedClear, beq_iff_eq, ← BitVec.toNat_inj, BitVec.toNat_ushiftRight, operandField_toNat,
    Nat.shiftRight_eq_div_pow]
  rfl

/-- With no reserved bit set, the low `n` bits are the whole operand field: no bit is dropped. -/
theorem reservedClear_and_low_iff {n : Nat} (hn : n ≤ 28) {w : Word} {x : BitVec n} :
    reservedClear n w = true ∧ w.extractLsb' 0 n = x ↔ operandField w = x.setWidth 28 := by
  have hx : x.toNat % 2 ^ 28 = x.toNat :=
    Nat.mod_eq_of_lt (x.isLt.trans_le (Nat.pow_le_pow_right (by decide) hn))
  have hlow : w.toNat % 2 ^ 28 % 2 ^ n = w.toNat % 2 ^ n :=
    Nat.mod_mod_of_dvd _ (pow_dvd_pow 2 hn)
  rw [reservedClear_iff, Nat.div_eq_zero_iff_lt (Nat.two_pow_pos n), ← BitVec.toNat_inj,
    ← BitVec.toNat_inj, BitVec.extractLsb'_toNat, operandField_toNat, BitVec.toNat_setWidth, hx,
    Nat.shiftRight_zero, ← hlow]
  constructor
  · rintro ⟨hlt, heq⟩
    rw [← heq, Nat.mod_eq_of_lt hlt]
  · intro heq
    rw [heq]
    exact ⟨x.isLt, Nat.mod_eq_of_lt x.isLt⟩

/-! ### The decoder -/

/-- An operand's format gives its command exactly to the words with no reserved bit set. -/
theorem decodeOperand_eq_ok_iff {n : Nat} {w : Word} {i j : Instr} :
    decodeOperand n w i = .ok j ↔ reservedClear n w = true ∧ i = j := by
  unfold decodeOperand
  split <;> simp [*]

/-- An operand's format rejects exactly the words with a reserved bit set (30_encoding.md R80). -/
theorem decodeOperand_rejects_iff {n : Nat} {w : Word} {i : Instr} :
    (∃ e, decodeOperand n w i = .error e) ↔ w.toNat % 2 ^ 28 / 2 ^ n ≠ 0 := by
  rw [Ne, ← reservedClear_iff]
  unfold decodeOperand
  split <;> simp [*]

/-- The format of a command without an operand: every bit below the op is reserved (30_encoding.md R74,
R77). -/
theorem decodeOperand_zero_eq_ok_iff {w : Word} {i : Instr} :
    decodeOperand 0 w i = .ok i ↔ operandField w = 0#28 := by
  rw [decodeOperand_eq_ok_iff, eq_self, and_true]
  simpa using reservedClear_and_low_iff (n := 0) (by decide) (w := w) (x := 0#0)

/-- The format of a command with an `n`-bit operand at bit 0 (30_encoding.md R73, R75, R76). -/
theorem decodeOperand_low_eq_ok_iff {n : Nat} (hn : n ≤ 28) {w : Word} {x : BitVec n}
    {command : BitVec n → Instr} (hinj : command.Injective) :
    decodeOperand n w (command (w.extractLsb' 0 n)) = .ok (command x) ↔
      operandField w = x.setWidth 28 := by
  rw [decodeOperand_eq_ok_iff, hinj.eq_iff, reservedClear_and_low_iff hn]

/-- Everything the decoder can answer, one case per op (30_encoding.md R79, R80). -/
theorem decode_cases (w : Word) :
    (opField w = 0x0#4 ∧ decode w = decodeOperand 0 w .nop) ∨
    (opField w = 0x1#4 ∧ decode w = decodeOperand 24 w (.encSet (w.extractLsb' 0 24))) ∨
    (opField w = 0x2#4 ∧ decode w = decodeOperand 0 w .encTick) ∨
    (opField w = 0x3#4 ∧ decode w = decodeOperand 8 w (.fixRx (w.extractLsb' 0 8))) ∨
    (opField w = 0x4#4 ∧ decode w = decodeOperand 8 w (.contRx (w.extractLsb' 0 8))) ∨
    (5 ≤ (opField w).toNat ∧ decode w = .error .reservedOp) := by
  unfold decode
  split
  case h_1 h => exact .inl ⟨BitVec.eq_of_toNat_eq h, rfl⟩
  case h_2 h => exact .inr (.inl ⟨BitVec.eq_of_toNat_eq h, rfl⟩)
  case h_3 h => exact .inr (.inr (.inl ⟨BitVec.eq_of_toNat_eq h, rfl⟩))
  case h_4 h => exact .inr (.inr (.inr (.inl ⟨BitVec.eq_of_toNat_eq h, rfl⟩)))
  case h_5 h => exact .inr (.inr (.inr (.inr (.inl ⟨BitVec.eq_of_toNat_eq h, rfl⟩))))
  case h_6 h0 h1 h2 h3 h4 =>
    simp only [imp_false] at h0 h1 h2 h3 h4
    exact .inr (.inr (.inr (.inr (.inr ⟨by omega, rfl⟩))))

/-- A legal word carries its command's op. -/
theorem opField_of_decode {w : Word} {i : Instr} (h : decode w = .ok i) : opField w = i.op := by
  rcases decode_cases w with ⟨hop, hdec⟩ | ⟨hop, hdec⟩ | ⟨hop, hdec⟩ | ⟨hop, hdec⟩ | ⟨hop, hdec⟩ |
    ⟨-, hdec⟩ <;> rw [hdec] at h
  case inr.inr.inr.inr.inr => exact nomatch h
  all_goals
    obtain ⟨-, rfl⟩ := decodeOperand_eq_ok_iff.mp h
    exact hop

/-- A word with a command's op decodes as that command exactly when its operand field is the
command's. -/
theorem decode_eq_ok_iff_operand {w : Word} {i : Instr} (hop : opField w = i.op) :
    decode w = .ok i ↔ operandField w = i.operand := by
  rw [decode, hop]
  cases i with
  | nop | encTick => exact decodeOperand_zero_eq_ok_iff
  | encSet payload => exact decodeOperand_low_eq_ok_iff (by decide) fun _ _ => Instr.encSet.inj
  | fixRx byte => exact decodeOperand_low_eq_ok_iff (by decide) fun _ _ => Instr.fixRx.inj
  | contRx byte => exact decodeOperand_low_eq_ok_iff (by decide) fun _ _ => Instr.contRx.inj

/-- The decoder reads a command from exactly one word, the one the encoder writes for it. -/
theorem decode_eq_ok_iff {w : Word} {i : Instr} : decode w = .ok i ↔ w = encode i := by
  rw [eq_encode_iff_fields]
  exact ⟨fun h => ⟨opField_of_decode h, (decode_eq_ok_iff_operand (opField_of_decode h)).mp h⟩,
    fun ⟨hop, hx⟩ => (decode_eq_ok_iff_operand hop).mpr hx⟩

/-- A command decodes from its own word. -/
@[simp] theorem decode_encode (i : Instr) : decode (encode i) = .ok i := decode_eq_ok_iff.mpr rfl

/-- Every command is well formed: its operands have the widths of their fields (30_encoding.md R78). -/
theorem Instr.wellFormed_eq_true (i : Instr) : i.wellFormed = true := by
  cases i with
  | nop | encTick => rfl
  | encSet payload => exact decide_eq_true payload.isLt
  | fixRx byte | contRx byte => exact decide_eq_true byte.isLt

/-- Settles O12: the word the encoder writes is the one the decoder reads the command from. -/
theorem decodeOfEncodeIsIdentity : Obligations.DecodeOfEncodeIsIdentity :=
  fun i _ => decode_encode i

/-- Settles O13: the decoder reads a command from no other word than the encoder's. -/
theorem encodeOfDecodeIsIdentity : Obligations.EncodeOfDecodeIsIdentity :=
  fun _ i h => ⟨(decode_eq_ok_iff.mp h).symm, i.wellFormed_eq_true⟩

/-- Settles O9: the legal words are those the encoder writes; the two others are evaluated. -/
theorem sampleWordsDecode : Obligations.SampleWordsDecode :=
  ⟨decode_encode .nop, decode_encode (.encSet 0xABCDEF#24), decode_encode .encTick,
    decode_encode (.fixRx 0xFF#8), decode_encode (.contRx 0x53#8), by decide, by decide⟩

/-- Settles O11: the decoder's answer for each op, in the order of R80. -/
theorem illegalWordsExactly : Obligations.IllegalWordsExactly := by
  intro w
  rw [← opField_toNat]
  rcases decode_cases w with ⟨hop, hdec⟩ | ⟨hop, hdec⟩ | ⟨hop, hdec⟩ | ⟨hop, hdec⟩ | ⟨hop, hdec⟩ |
    ⟨hop, hdec⟩
  case inr.inr.inr.inr.inr => exact iff_of_true ⟨_, hdec⟩ (.inl hop)
  all_goals simp [hdec, hop, decodeOperand_rejects_iff]

/-! ### Words written out, and the masks of the opcode table -/

/-- A command's word is its op in the top four bits, ORed with its operand at bit 0 (30_encoding.md
R73 to R77). -/
theorem encode_eq_or (i : Instr) :
    encode i = i.op.setWidth 32 <<< 28 ||| i.operand.setWidth 32 := by
  rw [← BitVec.setWidth_append_eq_shiftLeft_setWidth_or]
  exact (BitVec.setWidth_eq _).symm

theorem encode_encSet (payload : BitVec 24) :
    encode (.encSet payload) = 0x10000000#32 ||| payload.setWidth 32 :=
  (encode_eq_or _).trans (by simp [Instr.operand, Instr.op])

theorem encode_fixRx (byte : Byte) : encode (.fixRx byte) = 0x30000000#32 ||| byte.setWidth 32 :=
  (encode_eq_or _).trans (by simp [Instr.operand, Instr.op])

theorem encode_contRx (byte : Byte) : encode (.contRx byte) = 0x40000000#32 ||| byte.setWidth 32 :=
  (encode_eq_or _).trans (by simp [Instr.operand, Instr.op])

/-- The word whose bits are 1 exactly where an `n`-bit operand stands: the complement of a mask of the
opcode table (30_encoding.md R72). -/
def operandMask (n : Nat) : Word := (BitVec.allOnes n).setWidth 32

/-- A table row: ORing an operand into a match with no bit of its own there is having that match under
the mask and that operand in the field (30_encoding.md R72, R79). -/
theorem eq_or_setWidth_iff {n : Nat} {w m : Word} (x : BitVec n) (hm : m &&& operandMask n = 0#32) :
    w = m ||| x.setWidth 32 ↔
      w &&& ~~~operandMask n = m ∧ x.setWidth 32 = w &&& operandMask n := by
  have hx : x.setWidth 32 &&& operandMask n = x.setWidth 32 := by
    rw [operandMask, ← BitVec.setWidth_and, BitVec.and_allOnes]
  have hsplit : ∀ v : Word, (v &&& ~~~operandMask n) ||| (v &&& operandMask n) = v := fun v => by
    rw [← BitVec.and_or_distrib_left, BitVec.or_comm, BitVec.or_not_self, BitVec.and_allOnes]
  constructor
  · rintro rfl
    have hm' : m &&& ~~~operandMask n = m := by simpa [hm] using hsplit m
    have hx' : x.setWidth 32 &&& ~~~operandMask n = 0#32 := by
      rw [← hx, BitVec.and_assoc, BitVec.and_not_self]
      exact BitVec.and_zero
    rw [BitVec.and_or_distrib_right, BitVec.and_or_distrib_right, hm', hx', hm, hx, BitVec.or_zero,
      BitVec.zero_or]
    exact ⟨rfl, rfl⟩
  · rintro ⟨hmask, hfield⟩
    rw [← hmask, hfield, hsplit]

/-- Settles O10: the word a row of the table describes is the one the encoder writes. -/
theorem decodeMatchesOpcodeTable : Obligations.DecodeMatchesOpcodeTable := by
  intro w
  have hall : w &&& 0xFFFFFFFF#32 = w := BitVec.and_allOnes
  rw [hall]
  refine ⟨decode_eq_ok_iff, fun p => ?_, decode_eq_ok_iff, fun b => ?_, fun b => ?_⟩
  · rw [decode_eq_ok_iff, encode_encSet]
    exact eq_or_setWidth_iff p (by decide)
  · rw [decode_eq_ok_iff, encode_fixRx]
    exact eq_or_setWidth_iff b (by decide)
  · rw [decode_eq_ok_iff, encode_contRx]
    exact eq_or_setWidth_iff b (by decide)

end Sys2Proof
end

section
/-!
PROOFS, family 30_encoding.md, the command port: the step at an offered legal word and runs over the words
of a list of commands (R70, 70_reset_and_hazards.md R205); from these O4 and O6.
-/
namespace Sys2Proof.Machine

/-- A step on an offered legal word applies its command to the state that has consumed the sample. -/
theorem step_of_offer {s : State} {w : Word} {rest : List PortIn} {i : Instr}
    (hin : s.inputs = PortIn.offer w :: rest) (hdec : decode w = .ok i) :
    step s = exec i { s with inputs := rest } := by
  rw [step_eq, State.sample_of_inputs hin, State.consume_of_inputs hin]
  simp [clockEdge, accept, PortIn.offer, hdec]

/-- Settles O4: the sample is an offer of the word. -/
theorem stepRunsTheDecodedCommand : Obligations.StepRunsTheDecodedCommand :=
  fun _ _ _ _ hin hdec _ => step_of_offer hin hdec

/-- A command does not read the host's coming inputs: others in their place are kept as they are. -/
theorem exec_with_inputs {i : Instr} {s t : State} (l : List PortIn) (h : exec i s = .next t) :
    exec i { s with inputs := l } = .next { t with inputs := l } := by
  cases i <;> cases h <;> rfl

/-- Settles O6, by induction on the commands: each step applies the first one's word, and its command
does not read the words still to come. -/
theorem backToBackCommandsAllRun : Obligations.BackToBackCommandsAllRun := by
  intro is
  induction is with
  | nil =>
    rintro ⟨enc, fx, ct, resp, inputs⟩ rest rfl
    rfl
  | cons i is ih =>
    intro s rest hin
    obtain ⟨t, ht⟩ := exec_completes i s
    have hstep := (step_of_offer hin (decode_encode i)).trans (exec_with_inputs _ ht)
    rw [List.length_cons, run_succ_of_next _ hstep, ih _ rest rfl,
      execAll_cons_of_next is (exec_with_inputs rest ht)]

end Sys2Proof.Machine
end

section
/-!
PROOFS, family 30_encoding.md, the host's side: the chunk count and the data bytes (R84), and the words of
the assembler lines (R86); from these O14, O15 and O48.
-/
namespace Sys2Proof.Machine

/-! ### Chunking -/

/-- The chunk count is the least `k >= 1` with `V < 2^(7k)` (30_encoding.md R84). -/
theorem chunkCount_le_iff {v : Word} {k : Nat} (hk : 1 ≤ k) :
    chunkCount v ≤ k ↔ v.toNat < 2 ^ (7 * k) := by
  by_cases h5 : 5 ≤ k
  · have hpow : 2 ^ 32 ≤ 2 ^ (7 * k) := Nat.pow_le_pow_right (by decide) (by omega)
    refine iff_of_true (le_trans ?_ h5) (v.isLt.trans_le hpow)
    unfold chunkCount
    split_ifs <;> decide
  · have hk4 : k ≤ 4 := by omega
    unfold chunkCount
    interval_cases k <;> split_ifs <;> omega

theorem one_le_chunkCount (v : Word) : 1 ≤ chunkCount v := by
  unfold chunkCount
  split_ifs <;> decide

theorem chunkCount_le_five (v : Word) : chunkCount v ≤ 5 :=
  (chunkCount_le_iff (by decide)).mpr (v.isLt.trans (by decide))

theorem lt_two_pow_chunkCount (v : Word) : v.toNat < 2 ^ (7 * chunkCount v) :=
  (chunkCount_le_iff (one_le_chunkCount v)).mp le_rfl

/-- A data byte is 128 and its chunk (30_encoding.md R84). -/
theorem dataByte_toNat (v : Word) (k i : Nat) :
    (dataByte v k i).toNat = 128 + v.toNat / 2 ^ (7 * (k - i)) % 128 := by
  have hand : ∀ n : Nat, n % 2 ^ 8 &&& 127 = n % 128 := fun n => by
    rw [show (127 : Nat) = 2 ^ 7 - 1 by decide, Nat.and_two_pow_sub_one_eq_mod]
    omega
  rw [dataByte, BitVec.toNat_or, BitVec.toNat_and, BitVec.toNat_setWidth, BitVec.toNat_ushiftRight,
    Nat.shiftRight_eq_div_pow]
  show 128 ||| _ &&& 127 = _
  rw [hand]
  exact (Nat.two_pow_add_eq_or_of_lt (i := 7) (Nat.mod_lt _ (by decide)) 1).symm

theorem dataBytes_length (v : Word) : (dataBytes v).length = chunkCount v := by simp [dataBytes]

/-- The data bytes are numbered from 1. -/
theorem dataBytes_getElem? {v : Word} {i : Nat} (hi : 1 ≤ i) (hk : i ≤ chunkCount v) :
    (dataBytes v)[i - 1]? = some (dataByte v (chunkCount v) i) := by
  rw [dataBytes, List.getElem?_map, List.getElem?_range (by omega), Option.map_some,
    Nat.sub_add_cancel hi]

/-- Settles O15: the chunk count by its bound (`chunkCount_le_iff`), each data byte by its value. -/
theorem chunkingIsTheLeastAndCarriesTheChunks :
    Obligations.ChunkingIsTheLeastAndCarriesTheChunks := fun v =>
  ⟨one_le_chunkCount v, chunkCount_le_five v, lt_two_pow_chunkCount v,
    fun _ hk => (chunkCount_le_iff hk).mpr, dataBytes_length v,
    fun i hi hk => ⟨_, dataBytes_getElem? hi hk, dataByte_toNat v _ i⟩⟩

/-! ### Assembler lines -/

theorem asmWords_of_accepted {a : Asm} (h : a.refusal = none) :
    asmWords a = .ok ((asmExpand a).map encode) := by
  rw [asmWords, asmCommands_of_accepted h]
  rfl

theorem asmWords_of_refused {a : Asm} {e : AsmError} (h : a.refusal = some e) :
    asmWords a = .error e := by
  rw [asmWords, asmCommands_of_refused h]
  rfl

/-- A line with one bound gives its words within the bound and is refused outside it. -/
theorem asmWords_of_bound {a : Asm} {c : Prop} [Decidable c] {e : AsmError} {ws : List Word}
    (hrefusal : a.refusal = if c then none else some e)
    (hwords : c → (asmExpand a).map encode = ws) :
    asmWords a = if c then .ok ws else .error e := by
  by_cases hc : c
  · rw [if_pos hc] at hrefusal
    rw [if_pos hc, asmWords_of_accepted hrefusal, hwords hc]
  · rw [if_neg hc] at hrefusal
    rw [if_neg hc, asmWords_of_refused hrefusal]

/-- Settles O14: each line by its bound and the words of its commands. -/
theorem assemblerLinesGiveTheirWords : Obligations.AssemblerLinesGiveTheirWords := by
  refine ⟨asmWords_of_accepted rfl, asmWords_of_accepted rfl, fun p => ?_, fun b => ?_, fun b => ?_,
    fun n => ?_⟩
  · refine asmWords_of_bound rfl fun hp => ?_
    rw [asmExpand, List.map_singleton, encode_encSet,
      BitVec.setWidth_ofNat_of_le_of_lt (by decide) hp]
  · refine asmWords_of_bound rfl fun hb => ?_
    rw [asmExpand, List.map_singleton, encode_fixRx,
      BitVec.setWidth_ofNat_of_le_of_lt (by decide) hb]
  · refine asmWords_of_bound rfl fun hb => ?_
    rw [asmExpand, List.map_singleton, encode_contRx,
      BitVec.setWidth_ofNat_of_le_of_lt (by decide) hb]
  · refine asmWords_of_bound rfl fun _ => ?_
    rw [asmExpand, List.map_replicate]
    rfl

/-- A byte of a word, as the command word of `FIX_RX` carries it (30_encoding.md R82, R86). -/
theorem setWidth_extractLsb'_byte (v : Word) (start : Nat) :
    (v.extractLsb' start 8).setWidth 32 = v >>> start &&& 0xFF#32 := by
  apply BitVec.eq_of_toNat_eq
  rw [BitVec.toNat_setWidth_of_le (by decide), BitVec.extractLsb'_toNat, BitVec.toNat_and,
    BitVec.toNat_ushiftRight]
  exact (Nat.and_two_pow_sub_one_eq_mod _ 8).symm

/-- Above bit 24 a word has only its top byte. -/
theorem ushiftRight_24_and_byte (v : Word) : v >>> 24 &&& 0xFF#32 = v >>> 24 := by
  have hv := v.isLt
  apply BitVec.eq_of_toNat_eq
  rw [← setWidth_extractLsb'_byte, BitVec.toNat_setWidth_of_le (by decide), BitVec.extractLsb'_toNat,
    BitVec.toNat_ushiftRight, Nat.shiftRight_eq_div_pow]
  omega

/-- A data byte, as the command word of `CONT_RX` carries it (30_encoding.md R84, R86). -/
theorem encode_contRx_dataByte (v : Word) (k i : Nat) :
    encode (.contRx (dataByte v k i)) =
      0x40000080#32 ||| (v >>> (7 * (k - i)) &&& 0x7F#32) := by
  rw [encode_contRx, dataByte, BitVec.setWidth_or, BitVec.setWidth_and,
    BitVec.setWidth_ushiftRight_eq_extractLsb, setWidth_extractLsb'_byte, BitVec.and_assoc,
    ← BitVec.or_assoc]
  rfl

/-- Settles O48: the frames' bytes as command words, `k` being the chunk count. -/
theorem messageLinesGiveTheirWords : Obligations.MessageLinesGiveTheirWords := by
  intro v
  constructor
  · have hlow := setWidth_extractLsb'_byte v 0
    rw [BitVec.ushiftRight_zero] at hlow
    rw [asmWords_of_accepted rfl]
    simp only [asmExpand, fixFrame, List.map_cons, List.map_nil, encode_fixRx, hlow,
      setWidth_extractLsb'_byte, ushiftRight_24_and_byte]
    rfl
  · refine ⟨chunkCount v, one_le_chunkCount v, chunkCount_le_five v, lt_two_pow_chunkCount v,
      fun _ hj => (chunkCount_le_iff hj).mpr, ?_⟩
    rw [asmWords_of_accepted rfl]
    simp only [asmExpand, contFrame, dataBytes, List.map_cons, List.map_append, List.map_map,
      List.map_nil, Function.comp_def, encode_contRx_dataByte]
    rfl

end Sys2Proof.Machine
end

section
/-!
PROOFS, family 30_encoding.md, fixed-width frames: the fixed-width decoder over a list of bytes, and the
value a frame carries (R82, 41_fixed_decoder.md R134); from these O32.
-/
namespace Sys2Proof.Machine

/-! ### The decoder over a list of bytes -/

/-- The bytes received in order: the decoder after them, and what each one made it report. -/
def FixDecoder.receiveAll (p : Params) : List Byte → FixDecoder → FixDecoder × List RxResult
  | [], d => (d, [])
  | byte :: bytes, d =>
    let r := d.receive p byte
    let rs := FixDecoder.receiveAll p bytes r.1
    (rs.1, r.2 :: rs.2)

/-- A sequence of `FIX_RX` is its bytes received in order by the decoder (41_fixed_decoder.md R131). -/
theorem execAll_fixRx (bytes : List Byte) (s : State) :
    ∃ t, execAll (bytes.map Instr.fixRx) s = .next t ∧
      t.fx = (s.fx.receiveAll Config.hardware bytes).1 ∧
      responses (bytes.map Instr.fixRx) s =
        (s.fx.receiveAll Config.hardware bytes).2.map (Response.accepted 0x3#4).report := by
  induction bytes generalizing s with
  | nil => exact ⟨s, rfl, rfl, rfl⟩
  | cons byte bytes ih =>
    obtain ⟨t, ht, hfx, hresp⟩ := ih { s with
      fx := (s.fx.receive Config.hardware byte).1
      resp := (Response.accepted 0x3#4).report (s.fx.receive Config.hardware byte).2 }
    refine ⟨t, ?_, hfx, ?_⟩
    · rw [List.map_cons, execAll_cons_of_next _ (exec_fixRx byte s), ht]
    · rw [List.map_cons, responses_cons_of_next _ (exec_fixRx byte s), hresp]
      rfl

/-- The value a decoder's report carries. -/
def RxResult.value? : RxResult → Option Word
  | .value v => some v
  | .quiet | .framingError => none

/-- The response to a byte yields the value the decoder reports. -/
@[simp] theorem Response.yielded_report (op : Op) (x : RxResult) :
    ((Response.accepted op).report x).yielded = x.value? := by
  cases x <;> rfl

/-! ### A frame -/

/-- The four data bytes of a fixed-width frame as one value, each placed in the accumulator
(41_fixed_decoder.md R133). -/
def fixValue (b0 b1 b2 b3 : Byte) : Word :=
  placeByte (placeByte (placeByte (zext32 b0) 1 b1) 2 b2) 3 b3

/-- That value is the little-endian one (41_fixed_decoder.md R134). -/
theorem fixValue_toNat (b0 b1 b2 b3 : Byte) :
    (fixValue b0 b1 b2 b3).toNat =
      b0.toNat + 256 * b1.toNat + 65536 * b2.toNat + 16777216 * b3.toNat := by
  have h0 : (zext32 b0).toNat = b0.toNat := by
    rw [zext32, BitVec.toNat_setWidth_of_le (by decide)]
  have h1 := placeByte_toNat (k := 1) (by decide) (zext32_lt b0) b1
  have h2 := placeByte_toNat (k := 2) (by decide) (placeByte_lt (by decide) (zext32_lt b0) b1) b2
  have h3 := placeByte_toNat (k := 3) (by decide)
    (placeByte_lt (by decide) (placeByte_lt (by decide) (zext32_lt b0) b1) b2) b3
  rw [fixValue, h3, h2, h1, h0]
  omega

/-- A frame from `FX_IDLE` is taken whole: only its last byte reports, and it reports the value
(41_fixed_decoder.md R131, R134). -/
theorem FixDecoder.receiveAll_fixFrame {d : FixDecoder} (hidle : d.st = .idle)
    (b0 b1 b2 b3 : Byte) :
    d.receiveAll Config.hardware (fixFrame Config.hardware b0 b1 b2 b3) =
      (⟨.idle, fixValue b0 b1 b2 b3⟩,
        [.quiet, .quiet, .quiet, .quiet, .quiet, .value (fixValue b0 b1 b2 b3)]) := by
  obtain ⟨st, acc⟩ := d
  cases hidle
  rfl

/-- The six commands of a frame, from `FX_IDLE`, yield its value on the last one and leave `FX_IDLE`
(41_fixed_decoder.md R134). -/
theorem execAll_fixFrame {s : State} (hidle : s.fx.st = .idle) (b0 b1 b2 b3 : Byte) :
    ∃ t, execAll ((fixFrame Config.hardware b0 b1 b2 b3).map Instr.fixRx) s = .next t ∧
      t.fx.st = .idle ∧
      (responses ((fixFrame Config.hardware b0 b1 b2 b3).map Instr.fixRx) s).map Response.yielded =
        [none, none, none, none, none, some (fixValue b0 b1 b2 b3)] := by
  obtain ⟨t, ht, hfx, hresp⟩ := execAll_fixRx (fixFrame Config.hardware b0 b1 b2 b3) s
  rw [FixDecoder.receiveAll_fixFrame hidle] at hfx hresp
  refine ⟨t, ht, ?_, ?_⟩
  · rw [hfx]
  · rw [hresp]
    rfl

/-- The bytes of a word, the lowest first, give it back (30_encoding.md R82). -/
theorem fixValue_bytes (v : Word) :
    fixValue (v.extractLsb' 0 8) (v.extractLsb' 8 8) (v.extractLsb' 16 8) (v.extractLsb' 24 8) = v := by
  have hv := v.isLt
  apply BitVec.eq_of_toNat_eq
  simp only [fixValue_toNat, BitVec.extractLsb'_toNat, Nat.shiftRight_eq_div_pow]
  omega

/-- Settles O32: the line's commands are those of the frame of the value's own bytes. -/
theorem fxmsgYieldsItsValue : Obligations.FxmsgYieldsItsValue := by
  intro s v hidle
  obtain ⟨t, ht, hst, hyield⟩ := execAll_fixFrame hidle (v.extractLsb' 0 8) (v.extractLsb' 8 8)
    (v.extractLsb' 16 8) (v.extractLsb' 24 8)
  rw [fixValue_bytes] at hyield
  exact ⟨_, t, asmCommands_of_accepted rfl, ht, hst, hyield⟩

end Sys2Proof.Machine
end

section
/-!
PROOFS, family 40_encoder.md, one command: what `ENC_SET` and `ENC_TICK` do in each state (R104, R105,
R107), and what a sequence of encoder commands reads (R106); from these O17, O18, O19, O20 and O21.
-/
namespace Sys2Proof.Machine

/-! ### One tick -/

section Tick
variable {p : Params} {e : Encoder p}

/-- A remaining count that is at least `k` goes down by `k` without a wrap. -/
theorem toNat_sub_ofNat {w k : Nat} {x : BitVec w} (hk : k ≤ x.toNat) :
    (x - BitVec.ofNat w k).toNat = x.toNat - k := by
  have hval : (BitVec.ofNat w k).toNat = k := Nat.mod_eq_of_lt (hk.trans_lt x.isLt)
  rw [BitVec.toNat_sub_of_le (by rw [BitVec.le_def, hval]; exact hk), hval]

/-- An index counted up as a number is the register counted up. -/
theorem ofNat_toNat_add_one {w : Nat} (x : BitVec w) : BitVec.ofNat w (x.toNat + 1) = x + 1#w := by
  rw [BitVec.ofNat_add, BitVec.ofNat_toNat, BitVec.setWidth_eq]

/-- The phase not exhausted: a tick counts down (40_encoder.md R107). -/
theorem Encoder.tick_of_two_le (hbusy : e.phase ≠ .idle) (hrem : 2 ≤ e.rem.toNat) :
    e.tick p = ({ e with rem := e.rem - 1#_ }, none) := by
  rcases e.tick_cases with ⟨hidle, -⟩ | ⟨-, -, htick⟩ | ⟨-, hone, -⟩
  · exact absurd hidle hbusy
  · exact htick
  · have hle : (1#p.cntW).toNat ≤ 1 := Nat.mod_le _ _
    rw [hone] at hrem
    omega

/-- The phase exhausted: a tick enters the phase that R104 names (40_encoder.md R107). -/
theorem Encoder.tick_of_exhausted (hbusy : e.phase ≠ .idle) (hrem : e.rem = 1#_) :
    e.tick p = e.enter p (nextPhase p e.phase e.bit.toNat e.frame.toNat).1
      (nextPhase p e.phase e.bit.toNat e.frame.toNat).2.1
      (nextPhase p e.phase e.bit.toNat e.frame.toNat).2.2 := by
  rcases e.tick_cases with ⟨hidle, -⟩ | ⟨-, hmore, -⟩ | ⟨-, -, htick⟩
  · exact absurd hidle hbusy
  · exact absurd hrem hmore
  · exact htick

end Tick

/-- What `ENC_TICK` does to the state when the phase is exhausted and R104 names the next one. -/
theorem exec_encTick_of_exhausted {s : State} {ph ph' : Phase} {i f : Nat} (hrem : s.enc.rem = 1#_)
    (hph : s.enc.phase = ph) (hbusy : ph ≠ .idle)
    (hnext : nextPhase Config.hardware ph s.enc.bit.toNat s.enc.frame.toNat = (ph', i, f)) :
    exec .encTick s = .next { s with
      enc := (s.enc.enter Config.hardware ph' i f).1
      resp := (Response.accepted 0x2#4).emitLevel? (s.enc.enter Config.hardware ph' i f).2 } := by
  subst hph
  rw [exec_encTick, Encoder.tick_of_exhausted hbusy hrem, hnext]

/-- The same for a next phase that has a level: its duration is loaded and its level emitted
(40_encoder.md R107). -/
theorem exec_encTick_of_exhausted_of_level {s : State} {ph ph' : Phase} {i f : Nat} {l : Bool}
    (hrem : s.enc.rem = 1#_) (hph : s.enc.phase = ph) (hbusy : ph ≠ .idle)
    (hnext : nextPhase Config.hardware ph s.enc.bit.toNat s.enc.frame.toNat = (ph', i, f))
    (hlevel : phaseLevel ph' = some l) :
    exec .encTick s = .next { s with
      enc := ⟨ph', BitVec.ofNat _ i, BitVec.ofNat _ f,
        BitVec.ofNat _ (phaseDur Config.hardware s.enc.payload ph' i), s.enc.payload, l⟩
      resp := ⟨true, 0x2#4, true, l, false, 0#32, false, false⟩ } := by
  rw [exec_encTick_of_exhausted hrem hph hbusy hnext, Encoder.enter_of_level _ hlevel]
  rfl

/-- Settles O17: what `ENC_SET` does, its registers written out. -/
theorem encSetStartsTheFrame : Obligations.EncSetStartsTheFrame :=
  fun s payload => exec_encSet payload s

/-- Settles O19: in `IDLE` the tick does nothing and returns no level. -/
theorem encTickInIdleOnlyResponds : Obligations.EncTickInIdleOnlyResponds := by
  intro s hidle
  rw [exec_encTick, Encoder.tick_idle hidle]
  rfl

/-- Settles O20: the tick counts down, and the count does not wrap. -/
theorem encTickCountsDown : Obligations.EncTickCountsDown := by
  intro s hbusy hrem
  refine ⟨s.enc.rem - 1#_, toNat_sub_ofNat (by omega), ?_⟩
  rw [exec_encTick, Encoder.tick_of_two_le hbusy hrem]
  rfl

/-! ### The phases a tick can enter -/

section NextPhase
variable {p : Params} {i f : Nat}

/-- A bit gap before the last is followed by the next bit mark (40_encoder.md R104). -/
theorem nextPhase_bitGap_of_lt (hi : i + 1 < p.nbits) :
    nextPhase p .bitGap i f = (.bitMark, i + 1, f) := if_pos hi

/-- The last bit gap is followed by the trailer (40_encoder.md R104). -/
theorem nextPhase_bitGap_last (hi : i + 1 = p.nbits) :
    nextPhase p .bitGap i f = (.trlMark, 0, f) := by
  simp [nextPhase, hi]

/-- The trailer gap of a frame before the last is followed by the next frame (40_encoder.md R104). -/
theorem nextPhase_trlGap_of_lt (hf : f + 1 < p.frames) :
    nextPhase p .trlGap i f = (.preMark, 0, f + 1) := if_pos hf

/-- The trailer gap of the last frame is followed by `IDLE` (40_encoder.md R104). -/
theorem nextPhase_trlGap_last (hf : f + 1 = p.frames) :
    nextPhase p .trlGap i f = (.idle, 0, 0) := by
  simp [nextPhase, hf]

end NextPhase

/-- Settles O21: each clause of R104 gives the next place, and entering it writes the registers. -/
theorem encTickEntersTheNextPhase : Obligations.EncTickEntersTheNextPhase := by
  intro s hrem
  have hframe : BitVec.ofNat 1 s.enc.frame.toNat = s.enc.frame := by simp
  refine ⟨fun hph _ => ?_, fun hph _ => ?_, fun hph hbit => ?_, fun hph hbit => ?_,
    fun hph hbit => ?_, fun hph _ => ?_, fun hph _ hf => ?_⟩
  · rw [exec_encTick_of_exhausted_of_level hrem hph nofun rfl rfl, hframe]
    rfl
  · rw [exec_encTick_of_exhausted_of_level hrem hph nofun rfl rfl, hframe]
    rfl
  · have hindex : BitVec.ofNat Config.hardware.bitWidth s.enc.bit.toNat = s.enc.bit := by simp
    rw [exec_encTick_of_exhausted_of_level hrem hph nofun rfl rfl, hframe, hindex, phaseDur,
      bitval_of_lt _ hbit]
  · have hmore : s.enc.bit.toNat + 1 < Config.hardware.nbits := Nat.succ_lt_succ hbit
    rw [exec_encTick_of_exhausted_of_level hrem hph nofun (nextPhase_bitGap_of_lt hmore) rfl, hframe,
      ofNat_toNat_add_one]
    rfl
  · have hlast : s.enc.bit.toNat + 1 = Config.hardware.nbits := congrArg (· + 1) hbit
    rw [exec_encTick_of_exhausted_of_level hrem hph nofun (nextPhase_bitGap_last hlast) rfl, hframe]
    rfl
  · rw [exec_encTick_of_exhausted_of_level hrem hph nofun rfl rfl, hframe]
    rfl
  · by_cases hmore : s.enc.frame.toNat + 1 < Config.hardware.frames
    · rw [if_pos hmore, exec_encTick_of_exhausted_of_level hrem hph nofun
        (nextPhase_trlGap_of_lt hmore) rfl, ofNat_toNat_add_one]
      rfl
    · have hlast : s.enc.frame.toNat + 1 = Config.hardware.frames := by omega
      rw [if_neg hmore, exec_encTick_of_exhausted hrem hph nofun (nextPhase_trlGap_last hlast)]
      rfl

/-! ### Sequences of encoder commands -/

/-- Commands to the encoder read no register but the encoder's: from two states with the same encoder
they give the same responses and the same encoder (10_state.md R22). -/
theorem encoder_commands_read_enc {is : List Instr} (his : ∀ i ∈ is, unitOf i = some .encoder)
    {s s' : State} (hs : s.enc = s'.enc) :
    responses is s = responses is s' ∧
      ∃ t t', execAll is s = .next t ∧ execAll is s' = .next t' ∧ t.enc = t'.enc := by
  induction is generalizing s s' with
  | nil => exact ⟨rfl, s, s', rfl, rfl, hs⟩
  | cons i is ih =>
    obtain ⟨hi, htail⟩ := List.forall_mem_cons.mp his
    obtain ⟨u, hu⟩ := exec_completes i s
    obtain ⟨u', hu'⟩ := exec_completes i s'
    obtain ⟨hresp, henc, -, -⟩ := exec_reads_own_unit (fun _ => hs) (by simp [hi]) (by simp [hi]) hu hu'
    rw [responses_cons_of_next is hu, responses_cons_of_next is hu', execAll_cons_of_next is hu,
      execAll_cons_of_next is hu', hresp]
    obtain ⟨hrest, hend⟩ := ih htail (henc hi)
    exact ⟨congrArg _ hrest, hend⟩

/-- Settles O18: `ENC_SET` writes every register of the encoder, and the later commands read no other. -/
theorem preemptionLeavesNothingOfTheOldFrame : Obligations.PreemptionLeavesNothingOfTheOldFrame := by
  intro s payload is his
  rw [responses_cons_of_next is (exec_encSet payload s), execAll_cons_of_next is (exec_encSet payload s),
    responses_cons_of_next is (exec_encSet payload State.reset),
    execAll_cons_of_next is (exec_encSet payload State.reset)]
  refine And.imp_left (congrArg _) (encoder_commands_read_enc his ?_)
  rfl

end Sys2Proof.Machine
end

section
/-!
PROOFS, family 40_encoder.md, ticks in a row: the encoder after `n` ticks and the levels they return, how
sequences of commands without `ENC_SET` reduce to them, and one phase from its entry to the next
(R107, R108); from these O22.
-/
namespace Sys2Proof.Machine

/-- The encoder after `n` ticks. -/
def Encoder.ticks (p : Params) (n : Nat) (e : Encoder p) : Encoder p :=
  (fun e => (e.tick p).1)^[n] e

/-- The levels that `n` ticks return, `none` where a tick emits nothing. -/
def Encoder.tickLevels (p : Params) (n : Nat) (e : Encoder p) : List (Option Bool) :=
  (List.range n).map fun k => ((e.ticks p k).tick p).2

section Ticks
variable {p : Params} {e : Encoder p}

@[simp] theorem Encoder.ticks_zero : e.ticks p 0 = e := rfl

theorem Encoder.ticks_succ (n : Nat) : e.ticks p (n + 1) = (e.tick p).1.ticks p n := rfl

theorem Encoder.ticks_add (m n : Nat) : e.ticks p (m + n) = (e.ticks p m).ticks p n := by
  rw [Nat.add_comm]
  exact Function.iterate_add_apply _ n m e

/-- The last of `n + 1` ticks. -/
theorem Encoder.ticks_succ_last (n : Nat) : e.ticks p (n + 1) = ((e.ticks p n).tick p).1 :=
  Encoder.ticks_add n 1

@[simp] theorem Encoder.tickLevels_zero : e.tickLevels p 0 = [] := rfl

theorem Encoder.tickLevels_add (m n : Nat) :
    e.tickLevels p (m + n) = e.tickLevels p m ++ (e.ticks p m).tickLevels p n := by
  simp [Encoder.tickLevels, List.range_add, Encoder.ticks_add]

/-- The level of the first of `n + 1` ticks, then those of the rest. -/
theorem Encoder.tickLevels_succ (n : Nat) :
    e.tickLevels p (n + 1) = (e.tick p).2 :: (e.tick p).1.tickLevels p n := by
  rw [Nat.add_comm]
  exact Encoder.tickLevels_add 1 n

/-- The level of the last of `n + 1` ticks, after those of the others. -/
theorem Encoder.tickLevels_succ_last (n : Nat) :
    e.tickLevels p (n + 1) = e.tickLevels p n ++ [((e.ticks p n).tick p).2] :=
  Encoder.tickLevels_add n 1

/-- Ticks in `IDLE` do nothing, however many (40_encoder.md R107). -/
theorem Encoder.ticks_idle (hidle : e.phase = .idle) (n : Nat) : e.ticks p n = e :=
  Function.iterate_fixed (congrArg Prod.fst (Encoder.tick_idle hidle)) n

@[simp] theorem Encoder.ticks_payload (n : Nat) : (e.ticks p n).payload = e.payload := by
  induction n with
  | zero => rfl
  | succ n ih => rw [Encoder.ticks_succ_last, Encoder.tick_payload, ih]

/-! ### One phase -/

/-- The encoder with `k` ticks of its phase counted off, and all else as it was. -/
def Encoder.countOff (k : Nat) (e : Encoder p) : Encoder p := { e with rem := e.rem - BitVec.ofNat _ k }

theorem Encoder.countOff_countOff (j k : Nat) : (e.countOff j).countOff k = e.countOff (j + k) := by
  simp [Encoder.countOff, BitVec.ofNat_add, sub_add_eq_sub_sub]

theorem Encoder.countOff_rem {k : Nat} (hk : k ≤ e.rem.toNat) :
    (e.countOff k).rem.toNat = e.rem.toNat - k := toNat_sub_ofNat hk

/-- Entering a phase does not read the remaining count. -/
theorem Encoder.enter_countOff (k : Nat) (ph : Phase) (i f : Nat) :
    (e.countOff k).enter p ph i f = e.enter p ph i f := by
  cases ph <;> rfl

/-- The level that entering a phase returns is the phase's own (40_encoder.md R107). -/
theorem Encoder.enter_level (ph : Phase) (i f : Nat) : (e.enter p ph i f).2 = phaseLevel ph := by
  cases ph <;> rfl

/-- Fewer ticks than the phase has left only count down and emit nothing (40_encoder.md R108). -/
theorem Encoder.ticks_within_phase (hbusy : e.phase ≠ .idle) {k : Nat} (hk : k < e.rem.toNat) :
    e.ticks p k = e.countOff k ∧ e.tickLevels p k = List.replicate k none := by
  induction k with
  | zero => exact ⟨by simp [Encoder.countOff], rfl⟩
  | succ k ih =>
    obtain ⟨hticks, hlevels⟩ := ih (by omega)
    have hleft : 2 ≤ (e.countOff k).rem.toNat := by rw [Encoder.countOff_rem (by omega)]; omega
    have htick : (e.countOff k).tick p = (e.countOff (k + 1), none) := by
      rw [Encoder.tick_of_two_le (e := e.countOff k) hbusy hleft, ← Encoder.countOff_countOff]
      rfl
    rw [Encoder.ticks_succ_last, Encoder.tickLevels_succ_last, hticks, htick, hlevels,
      List.replicate_succ']
    exact ⟨rfl, rfl⟩

/-- As many ticks as the phase has left: the last of them enters the phase that R104 names, and only it
can emit (40_encoder.md R108). -/
theorem Encoder.ticks_through_phase (hbusy : e.phase ≠ .idle) (hrem : 1 ≤ e.rem.toNat) :
    e.ticks p e.rem.toNat = (e.enter p (nextPhase p e.phase e.bit.toNat e.frame.toNat).1
      (nextPhase p e.phase e.bit.toNat e.frame.toNat).2.1
      (nextPhase p e.phase e.bit.toNat e.frame.toNat).2.2).1 ∧
    e.tickLevels p e.rem.toNat = List.replicate (e.rem.toNat - 1) none ++
      [phaseLevel (nextPhase p e.phase e.bit.toNat e.frame.toNat).1] := by
  obtain ⟨n, hn⟩ := Nat.exists_eq_add_of_le' hrem
  obtain ⟨hticks, hlevels⟩ := Encoder.ticks_within_phase (k := n) hbusy (by omega)
  have hlast : (e.countOff n).rem.toNat = 1 := by rw [Encoder.countOff_rem (by omega)]; omega
  have hone : (e.countOff n).rem = 1#_ := by rw [← hlast]; simp
  have htick := Encoder.tick_of_exhausted (e := e.countOff n) hbusy hone
  rw [Encoder.enter_countOff] at htick
  rw [hn, Encoder.ticks_succ_last, Encoder.tickLevels_succ_last, hticks, htick, hlevels,
    Encoder.enter_level]
  exact ⟨rfl, rfl⟩

end Ticks

/-! ### Sequences of commands without `ENC_SET` -/

/-- The first command is a tick or not addressed to the encoder, and no `ENC_SET` follows. -/
theorem noEncSet_cons {i : Instr} {is : List Instr} (h : noEncSet (i :: is)) :
    (i = .encTick ∨ unitOf i ≠ some .encoder) ∧ noEncSet is := by
  refine ⟨?_, fun payload hmem => h payload (List.mem_cons_of_mem i hmem)⟩
  cases i with
  | encSet payload => exact absurd List.mem_cons_self (h payload)
  | encTick => exact .inl rfl
  | nop | fixRx | contRx => exact .inr nofun

theorem noEncSet_replicate_encTick (n : Nat) : noEncSet (List.replicate n .encTick) :=
  fun _ hmem => nomatch List.eq_of_mem_replicate hmem

/-- The response of a tick emits the level the tick returns. -/
@[simp] theorem Response.emitted_emitLevel? (op : Op) (l? : Option Bool) :
    ((Response.accepted op).emitLevel? l?).emitted = l? := by
  cases l? <;> rfl

/-- Commands without `ENC_SET` leave the encoder that their ticks alone leave, and emit the levels those
return (10_state.md R22). -/
theorem execAll_ticks {is : List Instr} (h : noEncSet is) (s : State) :
    ∃ t, execAll is s = .next t ∧ t.enc = s.enc.ticks Config.hardware (is.count .encTick) ∧
      (responses is s).filterMap Response.emitted =
        (s.enc.tickLevels Config.hardware (is.count .encTick)).filterMap id := by
  induction is generalizing s with
  | nil => exact ⟨s, rfl, rfl, rfl⟩
  | cons i is ih =>
    obtain ⟨hi, htail⟩ := noEncSet_cons h
    obtain ⟨u, hu⟩ := exec_completes i s
    obtain ⟨t, ht, henc, hemit⟩ := ih htail u
    refine ⟨t, (execAll_cons_of_next is hu).trans ht, ?_⟩
    rw [responses_cons_of_next is hu]
    rcases hi with rfl | hi
    · rw [exec_encTick] at hu
      cases hu
      rw [List.count_cons_self, Encoder.ticks_succ, Encoder.tickLevels_succ, List.filterMap_cons,
        Response.emitted_emitLevel?, List.filterMap_cons, hemit]
      exact ⟨henc, rfl⟩
    · have hnoTick : i ≠ .encTick := fun heq => hi (by rw [heq]; rfl)
      have hnone : u.resp.emitted = none := by simp [Response.emitted, exec_emits_none hi hu]
      rw [List.count_cons_of_ne hnoTick, List.filterMap_cons_none hnone, hemit, henc,
        exec_keeps_enc hi hu]
      exact ⟨rfl, rfl⟩

/-- The responses of ticks alone, each with the level its tick returns. -/
theorem responses_replicate_encTick (n : Nat) (s : State) :
    (responses (List.replicate n .encTick) s).map Response.emitted =
      s.enc.tickLevels Config.hardware n := by
  induction n generalizing s with
  | zero => rfl
  | succ n ih =>
    rw [List.replicate_succ, responses_cons_of_next _ (exec_encTick s), List.map_cons, ih,
      Response.emitted_emitLevel?, Encoder.tickLevels_succ]

/-! ### From a phase to the next -/

/-- The bit and frame indices of a place in a frame fit their registers (10_state.md R24, R25). -/
theorem InFrame.fits {p : Params} (hp : p.refusal = none) {ph : Phase} {i f : Nat}
    (h : InFrame p ph i f) : i < 2 ^ p.bitWidth ∧ f < 2 ^ 1 := by
  obtain ⟨hf, hbit, hzero⟩ := h
  obtain ⟨-, -, hopen⟩ := Params.refusal_eq_none_iff.mp hp
  obtain ⟨-, -, hframes, -⟩ := OpenParams.bounds_of_accepted hopen
  refine ⟨?_, by omega⟩
  by_cases hb : ph = .bitMark ∨ ph = .bitGap
  · exact Params.lt_two_pow_bitWidth (hbit hb)
  · obtain ⟨hmark, hgap⟩ := not_or.mp hb
    rw [hzero hmark hgap]
    exact Nat.two_pow_pos _

/-- Entering a phase with indices that fit their registers puts the encoder there. -/
theorem Encoder.enter_place {p : Params} (e : Encoder p) (ph : Phase) {i f : Nat}
    (hi : i < 2 ^ p.bitWidth) (hf : f < 2 ^ 1) :
    ((e.enter p ph i f).1.phase, (e.enter p ph i f).1.bit.toNat, (e.enter p ph i f).1.frame.toNat) =
      (ph, i, f) := by
  have hbit : (e.enter p ph i f).1.bit = BitVec.ofNat _ i := by cases ph <;> rfl
  have hframe : (e.enter p ph i f).1.frame = BitVec.ofNat _ f := by cases ph <;> rfl
  rw [Encoder.enter_phase, hbit, hframe, BitVec.toNat_ofNat, BitVec.toNat_ofNat,
    Nat.mod_eq_of_lt hi, Nat.mod_eq_of_lt hf]

/-- From a place in a frame R104 names indices that fit their registers. -/
theorem nextPhase_fits {p : Params} (hp : p.refusal = none) {ph : Phase} {i f : Nat}
    (h : InFrame p ph i f) (hbusy : ph ≠ .idle) :
    (nextPhase p ph i f).2.1 < 2 ^ p.bitWidth ∧ (nextPhase p ph i f).2.2 < 2 ^ 1 := by
  rcases nextPhase_inFrame hp h hbusy with ⟨-, hnext⟩ | ⟨-, hplace⟩
  · rw [hnext]
    exact ⟨Nat.two_pow_pos _, Nat.two_pow_pos _⟩
  · exact hplace.fits hp

/-- From a place in a frame R104 names another phase. -/
theorem nextPhase_ne_self {p : Params} {ph : Phase} {i f : Nat} (h : InFrame p ph i f)
    (hbusy : ph ≠ .idle) : (nextPhase p ph i f).1 ≠ ph := by
  obtain ⟨hf, hbit, -⟩ := h
  cases ph with
  | idle => exact absurd rfl hbusy
  | bitGap =>
    have hi : i < p.nbits := hbit (.inr rfl)
    by_cases hmore : i + 1 < p.nbits
    · rw [nextPhase_bitGap_of_lt hmore]; exact nofun
    · rw [nextPhase_bitGap_last (by omega)]; exact nofun
  | trlGap =>
    by_cases hmore : f + 1 < p.frames
    · rw [nextPhase_trlGap_of_lt hmore]; exact nofun
    · rw [nextPhase_trlGap_last (by omega)]; exact nofun
  | preMark | preGap | bitMark | trlMark => exact nofun

/-- Settles O22: the ticks within the phase, and the one that ends it. -/
theorem phaseHoldsForExactlyItsTicks : Obligations.PhaseHoldsForExactlyItsTicks := by
  intro s hinv hbusy
  obtain ⟨-, hrunning, -, -⟩ := id hinv
  obtain ⟨hrem, -, -, -⟩ := hrunning hbusy
  have hplace := hinv.inFrame hbusy
  constructor
  · intro k hk
    obtain ⟨t, ht, henc, hemit⟩ := execAll_ticks (noEncSet_replicate_encTick k) s
    obtain ⟨hticks, hlevels⟩ := Encoder.ticks_within_phase hbusy hk
    rw [List.count_replicate_self] at henc hemit
    rw [hemit, hlevels]
    refine ⟨by simp, t, ht, ?_⟩
    rw [henc, hticks]
    exact ⟨rfl, toNat_sub_ofNat hk.le⟩
  · obtain ⟨t, ht, henc, -⟩ := execAll_ticks (noEncSet_replicate_encTick s.enc.rem.toNat) s
    obtain ⟨hticks, -⟩ := Encoder.ticks_through_phase hbusy hrem
    obtain ⟨hi, hf⟩ := nextPhase_fits Config.hardware_refusal hplace hbusy
    rw [List.count_replicate_self, hticks] at henc
    refine ⟨t, ht, ?_, ?_⟩
    · rw [henc, Encoder.enter_place _ _ hi hf]
    · rw [henc, Encoder.enter_phase]
      exact nextPhase_ne_self hplace hbusy

end Sys2Proof.Machine
end

section
/-!
PROOFS, family 40_encoder.md, a whole transmission: the places the encoder passes from `ENC_SET` to `IDLE`,
that R104 leads from each to the next, and what the ticks between show (R103, R109); from these O23 and
O24.
-/
namespace Sys2Proof.Machine

/-! ### Places -/

/-- A place in a transmission: a phase with its bit and frame index. -/
structure Place where
  phase : Phase
  bit : Nat
  frame : Nat

/-- The place after the last trailer gap. -/
def Place.idle : Place := ⟨.idle, 0, 0⟩

/-- The first place of a frame. -/
def Place.start (f : Nat) : Place := ⟨.preMark, 0, f⟩

/-- The place that 40_encoder.md R104 names after `q`. -/
def Place.next (p : Params) (q : Place) : Place :=
  ⟨(nextPhase p q.phase q.bit q.frame).1, (nextPhase p q.phase q.bit q.frame).2.1,
    (nextPhase p q.phase q.bit q.frame).2.2⟩

/-- The place lies in a frame, with its indices in the ranges of 10_state.md R29. -/
def Place.Valid (p : Params) (q : Place) : Prop :=
  q.phase ≠ .idle ∧ InFrame p q.phase q.bit q.frame

/-- The ticks the encoder stays at a place (40_encoder.md R101). -/
def Place.dur (p : Params) (payload : BitVec p.nbits) (q : Place) : Nat :=
  phaseDur p payload q.phase q.bit

/-- The level at a place: that of its phase (40_encoder.md R100), and 0 in `IDLE` (10_state.md R29). -/
def Place.level (q : Place) : Bool := (phaseLevel q.phase).getD false

/-- What the encoder shows at a place. -/
def Place.view (q : Place) : TickView := ⟨q.phase, q.bit, q.frame, q.level⟩

/-- The encoder when it has just come to a place. -/
def Encoder.atEntry (p : Params) (payload : BitVec p.nbits) (q : Place) : Encoder p :=
  ⟨q.phase, BitVec.ofNat _ q.bit, BitVec.ofNat _ q.frame, BitVec.ofNat _ (q.dur p payload), payload,
    q.level⟩

section Places
variable {p : Params} {payload : BitVec p.nbits} {q : Place}

/-- `ENC_SET` puts the encoder at the entry of the first frame (40_encoder.md R105). -/
theorem Encoder.setValue_eq_atEntry :
    (Encoder.setValue p payload).1 = Encoder.atEntry p payload (Place.start 0) := rfl

/-- A place in a frame has the level of its phase. -/
theorem Place.Valid.phaseLevel_eq (hq : q.Valid p) : phaseLevel q.phase = some q.level := by
  obtain ⟨hbusy, -⟩ := hq
  obtain ⟨l, hl⟩ := Option.ne_none_iff_exists'.mp (mt phaseLevel_eq_none_iff.mp hbusy)
  rw [Place.level, hl, Option.getD_some]

/-- Entering a phase brings the encoder to its place: every register is written, but for `ir_out` in
`IDLE`, where the level 0 of the last trailer gap stays (40_encoder.md R107). -/
theorem Encoder.enter_eq_atEntry (e : Encoder p) (q : Place)
    (hlevel : q.phase = .idle → e.irOut = false) :
    (e.enter p q.phase q.bit q.frame).1 = Encoder.atEntry p e.payload q := by
  obtain ⟨ph, i, f⟩ := q
  cases ph with
  | idle => rw [Encoder.enter_idle, hlevel rfl]; rfl
  | _ => rfl

/-- At the entry of a place in a frame every register holds its number, within its width. -/
theorem Encoder.atEntry_toNat (hp : p.refusal = none) (hq : q.Valid p) :
    (Encoder.atEntry p payload q).bit.toNat = q.bit ∧
      (Encoder.atEntry p payload q).frame.toNat = q.frame ∧
      (Encoder.atEntry p payload q).rem.toNat = q.dur p payload := by
  obtain ⟨hbusy, hplace⟩ := hq
  obtain ⟨-, -, hopen⟩ := Params.refusal_eq_none_iff.mp hp
  obtain ⟨hbit, hframe⟩ := hplace.fits hp
  obtain ⟨-, hdur⟩ := phaseDur_bounds hopen payload hbusy q.bit
  exact ⟨Nat.mod_eq_of_lt hbit, Nat.mod_eq_of_lt hframe, Nat.mod_eq_of_lt hdur⟩

/-- The encoder stays at least one tick at a place in a frame (00_scope.md R6). -/
theorem Place.Valid.one_le_dur (hp : p.refusal = none) (hq : q.Valid p) : 1 ≤ q.dur p payload := by
  obtain ⟨hbusy, -⟩ := hq
  obtain ⟨-, -, hopen⟩ := Params.refusal_eq_none_iff.mp hp
  exact (phaseDur_bounds hopen payload hbusy q.bit).left

/-- `IDLE` follows only a place of level 0 (40_encoder.md R104). -/
theorem Place.Valid.level_of_next_idle (hp : p.refusal = none) (hq : q.Valid p)
    (hidle : (q.next p).phase = .idle) : q.level = false := by
  obtain ⟨hbusy, hplace⟩ := hq
  rcases nextPhase_inFrame hp hplace hbusy with ⟨hlast, -⟩ | ⟨hnext, -⟩
  · rw [Place.level, hlast]; rfl
  · exact absurd hidle hnext

/-- The ticks at a place but the last show the place. -/
theorem Encoder.ticks_atEntry_within (hp : p.refusal = none) (hq : q.Valid p) {k : Nat}
    (hk : k < q.dur p payload) :
    ((Encoder.atEntry p payload q).ticks p k).phase = q.phase ∧
      ((Encoder.atEntry p payload q).ticks p k).view = q.view := by
  obtain ⟨hbit, hframe, hrem⟩ := Encoder.atEntry_toNat (payload := payload) hp hq
  obtain ⟨hbusy, -⟩ := hq
  obtain ⟨hticks, -⟩ := Encoder.ticks_within_phase (e := Encoder.atEntry p payload q) hbusy
    (hk.trans_eq hrem.symm)
  rw [hticks]
  exact ⟨rfl, by rw [Place.view, ← hbit, ← hframe]; rfl⟩

/-- The last tick at a place brings the encoder to the next one, and emits the level there. -/
theorem Encoder.ticks_atEntry_through (hp : p.refusal = none) (hq : q.Valid p) :
    (Encoder.atEntry p payload q).ticks p (q.dur p payload) =
      Encoder.atEntry p payload (q.next p) ∧
    (Encoder.atEntry p payload q).tickLevels p (q.dur p payload) =
      List.replicate (q.dur p payload - 1) none ++ [phaseLevel (q.next p).phase] := by
  obtain ⟨hbit, hframe, hrem⟩ := Encoder.atEntry_toNat (payload := payload) hp hq
  have hentry := (Encoder.atEntry p payload q).enter_eq_atEntry (q.next p) (hq.level_of_next_idle hp)
  have hdur : 1 ≤ q.dur p payload := hq.one_le_dur hp
  obtain ⟨hbusy, -⟩ := hq
  obtain ⟨hticks, hlevels⟩ := Encoder.ticks_through_phase (e := Encoder.atEntry p payload q) hbusy
    (hdur.trans_eq hrem.symm)
  rw [hrem, hbit, hframe] at hticks hlevels
  exact ⟨hticks.trans hentry, hlevels⟩

end Places

/-! ### The way from place to place -/

/-- R104 leads from the first place over those of the list, each in a frame, to the last place. -/
def Leads (p : Params) : Place → List Place → Place → Prop
  | q, [], q' => q = q'
  | q, r :: rs, q' => q = r ∧ r.Valid p ∧ Leads p (r.next p) rs q'

section Leads
variable {p : Params}

theorem Leads.append {q q' q'' : Place} {rs ss : List Place} (h : Leads p q rs q')
    (h' : Leads p q' ss q'') : Leads p q (rs ++ ss) q'' := by
  induction rs generalizing q with
  | nil => cases h; exact h'
  | cons r rs ih =>
    obtain ⟨hq, hr, hrest⟩ := h
    exact ⟨hq, hr, ih hrest⟩

/-- Stretches from stop to stop, one after the other. -/
theorem Leads.flatMap_range {m : Nat} {stop : Nat → Place} {stretch : Nat → List Place}
    (h : ∀ k < m, Leads p (stop k) (stretch k) (stop (k + 1))) :
    Leads p (stop 0) ((List.range m).flatMap stretch) (stop m) := by
  induction m with
  | zero => rfl
  | succ m ih =>
    rw [List.range_succ, List.flatMap_append, List.flatMap_singleton]
    exact (ih fun k hk => h k (by omega)).append (h m (by omega))

theorem Leads.valid {q q' : Place} {rs : List Place} (h : Leads p q rs q') :
    ∀ r ∈ rs, r.Valid p := by
  induction rs generalizing q with
  | nil => exact nofun
  | cons r rs ih =>
    obtain ⟨-, hr, hrest⟩ := h
    exact List.forall_mem_cons.mpr ⟨hr, ih hrest⟩

/-- The two places of a payload bit. -/
def bitPlaces (f i : Nat) : List Place := [⟨.bitMark, i, f⟩, ⟨.bitGap, i, f⟩]

/-- The places of a frame, in order (40_encoder.md R103). -/
def framePlaces (p : Params) (f : Nat) : List Place :=
  [⟨.preMark, 0, f⟩, ⟨.preGap, 0, f⟩] ++ (List.range p.nbits).flatMap (bitPlaces f) ++
  [⟨.trlMark, 0, f⟩, ⟨.trlGap, 0, f⟩]

/-- The places of a whole transmission, in order. -/
def places (p : Params) : List Place := (List.range p.frames).flatMap (framePlaces p)

/-- Where the encoder comes after `i` bits of a frame. -/
def placeOfBit (p : Params) (f i : Nat) : Place :=
  if i < p.nbits then ⟨.bitMark, i, f⟩ else ⟨.trlMark, 0, f⟩

/-- Where the encoder comes after `f` frames. -/
def placeOfFrame (p : Params) (f : Nat) : Place :=
  if f < p.frames then Place.start f else Place.idle

/-- A bit's mark and gap lead to the next bit, or to the trailer. -/
theorem leads_bitPlaces {f i : Nat} (hf : f < p.frames) (hi : i < p.nbits) :
    Leads p (placeOfBit p f i) (bitPlaces f i) (placeOfBit p f (i + 1)) := by
  have hmark : (⟨.bitMark, i, f⟩ : Place).Valid p := ⟨nofun, hf, fun _ => hi, fun h => absurd rfl h⟩
  have hgap : (⟨.bitGap, i, f⟩ : Place).Valid p := ⟨nofun, hf, fun _ => hi, fun _ h => absurd rfl h⟩
  refine ⟨if_pos hi, hmark, rfl, hgap, ?_⟩
  by_cases hmore : i + 1 < p.nbits
  · simp [Leads, Place.next, placeOfBit, nextPhase_bitGap_of_lt hmore, hmore]
  · have hlast : i + 1 = p.nbits := by omega
    simp [Leads, Place.next, placeOfBit, nextPhase_bitGap_last hlast, hmore]

/-- The places of a frame lead to the next frame, or to `IDLE`. -/
theorem leads_framePlaces (hp : p.refusal = none) {f : Nat} (hf : f < p.frames) :
    Leads p (placeOfFrame p f) (framePlaces p f) (placeOfFrame p (f + 1)) := by
  obtain ⟨⟨hwidth, -⟩, -, -⟩ := Params.refusal_eq_none_iff.mp hp
  have hvalid : ∀ ph, ph ≠ .idle → ph ≠ .bitMark → ph ≠ .bitGap → (⟨ph, 0, f⟩ : Place).Valid p :=
    fun ph hbusy hmark hgap => ⟨hbusy, hf, fun h => absurd h (not_or.mpr ⟨hmark, hgap⟩),
      fun _ _ => rfl⟩
  have hbits := Leads.flatMap_range (stop := placeOfBit p f) fun i hi => leads_bitPlaces hf hi
  refine Leads.append (Leads.append ?_ hbits) ?_
  · exact ⟨if_pos hf, hvalid _ nofun nofun nofun, rfl, hvalid _ nofun nofun nofun,
      (if_pos hwidth).symm⟩
  · refine ⟨if_neg (lt_irrefl _), hvalid _ nofun nofun nofun, rfl, hvalid _ nofun nofun nofun, ?_⟩
    by_cases hmore : f + 1 < p.frames
    · simp [Leads, Place.next, placeOfFrame, nextPhase_trlGap_of_lt hmore, hmore, Place.start]
    · have hlast : f + 1 = p.frames := by omega
      simp [Leads, Place.next, placeOfFrame, nextPhase_trlGap_last hlast, hmore, Place.idle]

/-- The places of a transmission lead from the entry of the first frame to `IDLE` (40_encoder.md
R103, R104). -/
theorem leads_places (hp : p.refusal = none) :
    Leads p (Place.start 0) (places p) Place.idle := by
  obtain ⟨-, -, hopen⟩ := Params.refusal_eq_none_iff.mp hp
  obtain ⟨-, -, hframes, -⟩ := OpenParams.bounds_of_accepted hopen
  have hall := Leads.flatMap_range (stop := placeOfFrame p) fun f hf => leads_framePlaces hp hf
  have hfirst : placeOfFrame p 0 = Place.start 0 := if_pos (by omega)
  have hend : placeOfFrame p p.frames = Place.idle := if_neg (lt_irrefl _)
  rwa [hfirst, hend] at hall

end Leads

/-! ### The frame layout as places -/

section Layout
variable {p : Params} {payload : BitVec p.nbits}

/-- The row of the table of 40_encoder.md R103 for a place. -/
def Place.row (p : Params) (payload : BitVec p.nbits) (q : Place) : LayoutRow :=
  ⟨q.phase, q.bit, q.level, q.dur p payload⟩

/-- The table of R103 has the rows of a frame's places. -/
theorem frameLayout_eq_map (f : Nat) :
    frameLayout p payload = (framePlaces p f).map (Place.row p payload) := by
  have hbit : ∀ i ∈ List.range p.nbits,
      [⟨.bitMark, i, true, p.h⟩, ⟨.bitGap, i, false, if payload.getMsbD i then p.l1 else p.l0⟩] =
        (bitPlaces f i).map (Place.row p payload) := by
    intro i hi
    rw [← bitval_eq_getMsbD payload (List.mem_range.mp hi)]
    rfl
  rw [frameLayout, framePlaces, List.map_append, List.map_append, List.map_flatMap,
    List.flatMap_congr hbit]
  rfl

theorem frame_of_mem_framePlaces {f : Nat} {q : Place} (hq : q ∈ framePlaces p f) : q.frame = f := by
  simp only [framePlaces, bitPlaces, List.mem_append, List.mem_flatMap, List.mem_cons,
    List.not_mem_nil, or_false] at hq
  rcases hq with ((rfl | rfl) | ⟨i, -, rfl | rfl⟩) | rfl | rfl <;> rfl

/-- Tick by tick, a transmission shows each place for its ticks. -/
theorem transmission_eq_flatMap : transmission p payload =
    (places p).flatMap fun q => List.replicate (q.dur p payload) q.view := by
  have hframe : ∀ f, ((frameLayout p payload).flatMap fun row =>
      List.replicate row.ticks (⟨row.phase, row.bit, f, row.level⟩ : TickView)) =
        (framePlaces p f).flatMap fun q => List.replicate (q.dur p payload) q.view := by
    intro f
    rw [frameLayout_eq_map f, List.flatMap_map]
    refine List.flatMap_congr fun q hq => ?_
    rw [Place.view, frame_of_mem_framePlaces hq]
    rfl
  rw [transmission, places, List.flatMap_assoc]
  exact List.flatMap_congr fun f _ => hframe f

/-- The ticks of marks and gaps, when a gap's length is decided by a test. -/
theorem sum_mark_gap (l : List Nat) (c : Nat → Bool) (h a b : Nat) :
    (l.map fun i => h + if c i then a else b).sum =
      l.length * h + (l.length - l.countP c) * b + l.countP c * a := by
  induction l with
  | nil => simp
  | cons i l ih =>
    have hle : l.countP c ≤ l.length := List.countP_le_length
    rw [List.map_cons, List.sum_cons, ih, List.length_cons, Nat.succ_mul]
    by_cases hc : c i
    · rw [if_pos hc, List.countP_cons_of_pos hc, Nat.add_sub_add_right, Nat.succ_mul]
      omega
    · rw [if_neg hc, List.countP_cons_of_neg hc, Nat.succ_sub hle, Nat.succ_mul]
      omega

/-- The 1 bits may be counted from the most significant one. -/
theorem onesOf_eq_countP_getMsbD {n : Nat} (payload : BitVec n) :
    onesOf payload = (List.range n).countP fun i => payload.getMsbD i := by
  rw [onesOf, ← List.countP_reverse, List.range_eq_range', List.reverse_range', List.countP_map,
    ← List.range_eq_range']
  refine List.countP_congr fun i hi => ?_
  have hi : i < n := List.mem_range.mp hi
  simp [BitVec.getMsbD, hi]

/-- The ticks of stretches of places, one stretch after the other. -/
theorem sum_map_flatMap {α β : Type} (d : β → Nat) (g : α → List β) (l : List α) :
    ((l.flatMap g).map d).sum = (l.map fun a => ((g a).map d).sum).sum := by
  rw [List.map_flatMap, List.flatMap_def, List.sum_flatten, List.map_map]
  rfl

/-- The payload bits of a frame last `H` ticks each, and the ticks of their gaps (40_encoder.md R109). -/
theorem sum_dur_bitPlaces (f : Nat) :
    (((List.range p.nbits).flatMap (bitPlaces f)).map (Place.dur p payload)).sum =
      p.nbits * p.h + (p.nbits - onesOf payload) * p.l0 + onesOf payload * p.l1 := by
  have hbit : ∀ i ∈ List.range p.nbits, ((bitPlaces f i).map (Place.dur p payload)).sum =
      p.h + if payload.getMsbD i then p.l1 else p.l0 := by
    intro i hi
    rw [← bitval_eq_getMsbD payload (List.mem_range.mp hi)]
    rfl
  rw [sum_map_flatMap, List.map_congr_left hbit, sum_mark_gap, List.length_range,
    onesOf_eq_countP_getMsbD]

/-- A frame lasts `T_frame` ticks (40_encoder.md R109). -/
theorem sum_dur_framePlaces (f : Nat) :
    ((framePlaces p f).map (Place.dur p payload)).sum = frameTicks p payload := by
  rw [framePlaces, List.map_append, List.map_append, List.sum_append, List.sum_append,
    sum_dur_bitPlaces, frameTicks]
  simp only [List.map_cons, List.map_nil, List.sum_cons, List.sum_nil, Place.dur, phaseDur]
  omega

/-- A transmission lasts `T_frame·FRAMES` ticks (40_encoder.md R109). -/
theorem sum_dur_places :
    ((places p).map (Place.dur p payload)).sum = frameTicks p payload * p.frames := by
  simp [places, sum_map_flatMap, sum_dur_framePlaces, Nat.mul_comm]

theorem transmission_length : (transmission p payload).length = frameTicks p payload * p.frames := by
  rw [transmission_eq_flatMap, List.length_flatMap, ← sum_dur_places]
  simp

end Layout

/-! ### A whole transmission -/

/-- From the entry of a place on, `k` ticks show the `k`-th tick of the places up to `IDLE`, and are in
`IDLE` past them. -/
theorem Leads.getElem?_views {p : Params} {payload : BitVec p.nbits} (hp : p.refusal = none)
    {q : Place} {qs : List Place} (h : Leads p q qs Place.idle) (k : Nat) :
    (qs.flatMap fun r => List.replicate (r.dur p payload) r.view)[k]? =
      if ((Encoder.atEntry p payload q).ticks p k).phase = .idle then none
      else some ((Encoder.atEntry p payload q).ticks p k).view := by
  induction qs generalizing q k with
  | nil =>
    cases h
    have hidle : (Encoder.atEntry p payload Place.idle).phase = .idle := rfl
    rw [Encoder.ticks_idle hidle, if_pos hidle]
    rfl
  | cons r rs ih =>
    obtain ⟨rfl, hq, hrest⟩ := h
    rw [List.flatMap_cons]
    by_cases hk : k < q.dur p payload
    · obtain ⟨hphase, hview⟩ := Encoder.ticks_atEntry_within hp hq hk
      obtain ⟨hbusy, -⟩ := hq
      rw [List.getElem?_append_left (by simpa using hk), List.getElem?_replicate_of_lt hk,
        if_neg (by rw [hphase]; exact hbusy), hview]
    · obtain ⟨hticks, -⟩ := Encoder.ticks_atEntry_through (payload := payload) hp hq
      obtain ⟨j, rfl⟩ := Nat.exists_eq_add_of_le (not_lt.mp hk)
      rw [List.getElem?_append_right (by simp), List.length_replicate, Nat.add_sub_cancel_left, ih hrest,
        Encoder.ticks_add, hticks]

/-- From `ENC_SET` on, the commands complete, and the encoder shows the tick of the transmission that
their ticks have come to. -/
theorem execAll_encSet_shows_transmission (s : State) (payload : BitVec 24) {is : List Instr}
    (h : noEncSet is) :
    ∃ t, execAll (.encSet payload :: is) s = .next t ∧ t.enc.payload = payload ∧
      (transmission Config.hardware payload)[is.count .encTick]? =
        if t.enc.phase = .idle then none else some t.enc.view := by
  rw [execAll_cons_of_next is (exec_encSet payload s)]
  obtain ⟨t, ht, henc, -⟩ := execAll_ticks h { s with
    enc := (Encoder.setValue Config.hardware payload).1
    resp := (Response.accepted 0x1#4).emitLevel true }
  refine ⟨t, ht, ?_, ?_⟩
  · rw [henc, Encoder.ticks_payload]; rfl
  · rw [henc, transmission_eq_flatMap, Encoder.setValue_eq_atEntry]
    exact (leads_places Config.hardware_refusal).getElem?_views Config.hardware_refusal _

/-- Settles O23: the places of the table lead from `ENC_SET` to `IDLE` as R104 does, and each is held for its
ticks. -/
theorem transmissionFollowsTheFrameLayout : Obligations.TransmissionFollowsTheFrameLayout :=
  fun s payload _ h => execAll_encSet_shows_transmission s payload h

/-- Settles O24: the encoder is in `IDLE` exactly past the end of the transmission's ticks, of which there
are `T_frame·FRAMES`. -/
theorem frameLengthIsTFrameTimesFrames : Obligations.FrameLengthIsTFrameTimesFrames := by
  intro s payload is h hle
  obtain ⟨t, ht, -, hshows⟩ := execAll_encSet_shows_transmission s payload h
  refine ⟨t, ht, ?_⟩
  have hidle : t.enc.phase = .idle ↔
      (transmission Config.hardware payload)[is.count .encTick]? = none := by simp [hshows]
  rw [hidle, List.getElem?_eq_none_iff, transmission_length]
  exact ⟨hle.antisymm, ge_of_eq⟩

end Sys2Proof.Machine
end

section
/-!
PROOFS, family 40_encoder.md, what a whole transmission emits: one level at the entry of each place, their
alternation (R110), and the ticks at which the bit gaps begin and end (R111); from these O25 and O26.
-/
namespace Sys2Proof.Machine

/-! ### The emissions place by place -/

section Emissions
variable {p : Params} {payload : BitVec p.nbits}

/-- What the entry of a place and the ticks at it but the last emit: its level, then nothing. -/
def Place.emissions (p : Params) (payload : BitVec p.nbits) (q : Place) : List (Option Bool) :=
  some q.level :: List.replicate (q.dur p payload - 1) none

/-- From the entry of a place to `IDLE`, that entry included, each place emits as it does alone, and
entering `IDLE` emits nothing (40_encoder.md R107). -/
theorem Leads.tickLevels_eq (hp : p.refusal = none) {q : Place} {qs : List Place}
    (h : Leads p q qs Place.idle) :
    phaseLevel q.phase ::
        (Encoder.atEntry p payload q).tickLevels p (qs.map (Place.dur p payload)).sum =
      qs.flatMap (Place.emissions p payload) ++ [none] := by
  induction qs generalizing q with
  | nil => cases h; rfl
  | cons r rs ih =>
    obtain ⟨rfl, hq, hrest⟩ := h
    obtain ⟨hticks, hlevels⟩ := Encoder.ticks_atEntry_through (payload := payload) hp hq
    rw [List.map_cons, List.sum_cons, Encoder.tickLevels_add, hlevels, hticks, List.append_assoc,
      List.singleton_append, ih hrest, hq.phaseLevel_eq, List.flatMap_cons, List.append_assoc]
    rfl

/-- The levels a transmission emits with that of `ENC_SET`, a tick that emits none shown as `none`. -/
theorem transmission_emissions (payload : BitVec 24) :
    some true :: (Encoder.setValue Config.hardware payload).1.tickLevels Config.hardware
        (frameTicks Config.hardware payload * Config.hardware.frames) =
      (places Config.hardware).flatMap (Place.emissions Config.hardware payload) ++ [none] := by
  rw [← sum_dur_places, Encoder.setValue_eq_atEntry]
  exact (leads_places Config.hardware_refusal).tickLevels_eq Config.hardware_refusal

/-! ### Their alternation -/

/-- The levels 1, 0, 1, 0, … of `k` marks with their gaps. -/
def pulses (k : Nat) : List Bool := (List.range (2 * k)).map fun j => j % 2 == 0

theorem pulses_append (j k : Nat) : pulses j ++ pulses k = pulses (j + k) := by
  simp [pulses, Nat.mul_add, List.range_add]

theorem flatMap_range_pulses (m k : Nat) :
    ((List.range m).flatMap fun _ => pulses k) = pulses (m * k) := by
  induction m with
  | zero => simp [pulses]
  | succ m ih =>
    rw [List.range_succ, List.flatMap_append, ih, List.flatMap_singleton, pulses_append, Nat.succ_mul]

/-- The levels of a frame: `NBITS + 2` marks with their gaps (40_encoder.md R103). -/
theorem level_framePlaces (f : Nat) : (framePlaces p f).map Place.level = pulses (p.nbits + 2) := by
  have hbits : ((List.range p.nbits).flatMap (bitPlaces f)).map Place.level = pulses (p.nbits * 1) := by
    rw [List.map_flatMap, ← flatMap_range_pulses]
    rfl
  calc (framePlaces p f).map Place.level
      = pulses 1 ++ pulses (p.nbits * 1) ++ pulses 1 := by
        rw [framePlaces, List.map_append, List.map_append, hbits]; rfl
    _ = pulses (p.nbits + 2) := by
        rw [pulses_append, pulses_append]; congr 1; omega

theorem level_places : (places p).map Place.level = pulses (p.frames * (p.nbits + 2)) := by
  rw [places, List.map_flatMap, ← flatMap_range_pulses]
  simp only [level_framePlaces]

/-- The levels that the places emit are their own. -/
theorem filterMap_emissions (qs : List Place) :
    (qs.flatMap (Place.emissions p payload) ++ [none]).filterMap id = qs.map Place.level := by
  have hplace : ∀ q : Place, (q.emissions p payload).filterMap id = [q.level] := fun q => by
    simp [Place.emissions]
  rw [List.filterMap_append, List.filterMap_flatMap, List.filterMap_cons_none rfl,
    List.filterMap_nil, List.append_nil]
  simp only [hplace, List.map_eq_flatMap]

/-! ### Their ticks -/

/-- The levels emitted, each with its position counted from `k`. -/
def marks (k : Nat) (os : List (Option Bool)) : List (Nat × Bool) :=
  (os.zipIdx k).filterMap fun (o, j) => o.map fun l => (j, l)

theorem emissions_eq_marks (rs : List Response) :
    emissions rs = marks 0 (rs.map Response.emitted) := by
  simp [emissions, marks, List.zipIdx_map, List.filterMap_map]

theorem marks_append (k : Nat) (os os' : List (Option Bool)) :
    marks k (os ++ os') = marks k os ++ marks (k + os.length) os' := by
  simp [marks, List.zipIdx_append]

theorem marks_replicate_none (k n : Nat) : marks k (List.replicate n none) = [] := by
  induction n generalizing k with
  | zero => rfl
  | succ n ih => exact ih (k + 1)

/-- A place emits its level at its entry and nothing more. -/
theorem marks_emissions {q : Place} (k : Nat) : marks k (q.emissions p payload) = [(k, q.level)] := by
  show (k, q.level) :: marks (k + 1) _ = _
  rw [marks_replicate_none]

/-- The `m`-th emission is the level of the `m`-th place, after the ticks of the places before it. -/
theorem getElem?_marks_emissions (hp : p.refusal = none) {qs : List Place} (hqs : ∀ q ∈ qs, q.Valid p)
    (k m : Nat) :
    (marks k (qs.flatMap (Place.emissions p payload) ++ [none]))[m]? =
      qs[m]?.map fun q => (k + ((qs.take m).map (Place.dur p payload)).sum, q.level) := by
  induction qs generalizing k m with
  | nil => rfl
  | cons q qs ih =>
    obtain ⟨hq, hrest⟩ := List.forall_mem_cons.mp hqs
    have hdur : 1 ≤ q.dur p payload := hq.one_le_dur hp
    have hlength : (q.emissions p payload).length = q.dur p payload := by
      simp [Place.emissions]; omega
    rw [List.flatMap_cons, List.append_assoc, marks_append, marks_emissions, hlength]
    cases m with
    | zero => rfl
    | succ m =>
      rw [List.singleton_append, List.getElem?_cons_succ, ih hrest]
      simp [Nat.add_assoc]

/-! ### Where the bit gaps stand -/

/-- The `j`-th member of the `i`-th of stretches that are all of one length. -/
theorem getElem?_flatMap_range {α : Type} {g : Nat → List α} {len m i j : Nat}
    (hlen : ∀ i, (g i).length = len) (hi : i < m) (hj : j < len) :
    ((List.range m).flatMap g)[len * i + j]? = (g i)[j]? := by
  induction m with
  | zero => exact absurd hi (Nat.not_lt_zero i)
  | succ m ih =>
    have hlength : ((List.range m).flatMap g).length = len * m := by
      simp [List.length_flatMap, hlen, Nat.mul_comm]
    rw [List.range_succ, List.flatMap_append, List.flatMap_singleton]
    rcases Nat.lt_succ_iff_lt_or_eq.mp hi with hlt | rfl
    · have hmul : len * i + len ≤ len * m := Nat.mul_le_mul_left len hlt
      rw [List.getElem?_append_left (by rw [hlength]; omega), ih hlt]
    · rw [List.getElem?_append_right (by rw [hlength]; omega), hlength, Nat.add_sub_cancel_left]

theorem length_framePlaces (f : Nat) : (framePlaces p f).length = 2 * p.nbits + 4 := by
  simp [framePlaces, bitPlaces, List.length_flatMap]
  omega

theorem length_places : (places p).length = (2 * p.nbits + 4) * p.frames := by
  simp [places, List.length_flatMap, length_framePlaces, Nat.mul_comm]

/-- The `i`-th bit gap of frame `f` is place `2i + 3` of the frame (40_encoder.md R103, R111). -/
theorem getElem?_places_bitGap {f i : Nat} (hf : f < p.frames) (hi : i < p.nbits) :
    (places p)[(2 * p.nbits + 4) * f + 2 * i + 3]? = some ⟨.bitGap, i, f⟩ := by
  have hgap : ((List.range p.nbits).flatMap (bitPlaces f))[2 * i + 1]? = some ⟨.bitGap, i, f⟩ :=
    getElem?_flatMap_range (fun _ => rfl) hi (by decide)
  rw [places, Nat.add_assoc, getElem?_flatMap_range length_framePlaces hf (by omega), framePlaces,
    List.append_assoc]
  show (((List.range p.nbits).flatMap (bitPlaces f)) ++ _)[2 * i + 1]? = _
  rw [List.getElem?_append_left (List.getElem?_eq_some_iff.mp hgap).choose, hgap]

end Emissions

/-- Settles O25: the levels emitted are those of the places, and these alternate. -/
theorem levelsEmittedAlternate : Obligations.LevelsEmittedAlternate := by
  intro s payload is h hcount
  obtain ⟨-, -, -, hemit⟩ := execAll_ticks h { s with
    enc := (Encoder.setValue Config.hardware payload).1
    resp := (Response.accepted 0x1#4).emitLevel true }
  rw [responses_cons_of_next is (exec_encSet payload s)]
  calc _ = (some true :: (Encoder.setValue Config.hardware payload).1.tickLevels Config.hardware
        (frameTicks Config.hardware payload * Config.hardware.frames)).filterMap id := by
        rw [← hcount]; exact congrArg (true :: ·) hemit
    _ = pulses (Config.hardware.frames * (24 + 2)) := by
        rw [transmission_emissions, filterMap_emissions, level_places]
    _ = _ := by
        rw [pulses, Nat.mul_left_comm, Nat.mul_comm]

/-- The emissions of a transmission, by number: the level of each place with the tick of its entry. -/
theorem getElem?_emissions_transmission (s : State) (payload : BitVec 24) (m : Nat) :
    (emissions (responses (.encSet payload :: List.replicate
      (frameTicks Config.hardware payload * Config.hardware.frames) .encTick) s))[m]? =
    (places Config.hardware)[m]?.map fun q =>
      ((((places Config.hardware).take m).map (Place.dur Config.hardware payload)).sum, q.level) := by
  have hos : (responses (.encSet payload :: List.replicate
      (frameTicks Config.hardware payload * Config.hardware.frames) .encTick) s).map
        Response.emitted =
      (places Config.hardware).flatMap (Place.emissions Config.hardware payload) ++ [none] := by
    rw [responses_cons_of_next _ (exec_encSet payload s), List.map_cons,
      responses_replicate_encTick, ← transmission_emissions]
    rfl
  rw [emissions_eq_marks, hos, getElem?_marks_emissions Config.hardware_refusal
    (leads_places Config.hardware_refusal).valid]
  simp only [Nat.zero_add]

/-- The gap of a bit lasts `L1` or `L0` ticks by the bit (40_encoder.md R101, R102). -/
theorem dur_bitGap (payload : BitVec 24) (f : Nat) {i : Nat} (hi : i < 24) :
    Place.dur Config.hardware payload ⟨.bitGap, i, f⟩ =
      if payload.getMsbD i then Config.hardware.l1 else Config.hardware.l0 := by
  rw [← bitval_eq_getMsbD payload hi]
  rfl

/-- The ticks of a bit gap are those of the two emissions that bound it (40_encoder.md R111). -/
theorem gapTicks_of_getElem? {nbits f i t0 t1 : Nat} {l0 l1 : Bool} {es : List (Nat × Bool)}
    (hbegin : es[(2 * nbits + 4) * f + 2 * i + 3]? = some (t0, l0))
    (hend : es[(2 * nbits + 4) * f + 2 * i + 4]? = some (t1, l1)) :
    gapTicks nbits es f i = some (t0, t1) := by
  rw [gapTicks, hbegin, hend]

/-- Settles O26: the gap is a place of the transmission, and the emissions that begin and end it are its own
and the next place's, its duration apart. -/
theorem bitGapsGiveBackThePayload : Obligations.BitGapsGiveBackThePayload := by
  intro s payload f i hf hi
  have hgap : (places Config.hardware)[(2 * 24 + 4) * f + 2 * i + 3]? = some ⟨.bitGap, i, f⟩ :=
    getElem?_places_bitGap hf hi
  have hlt : (2 * 24 + 4) * f + 2 * i + 4 < (places Config.hardware).length := by
    have hmul : (2 * 24 + 4) * (f + 1) ≤ (2 * 24 + 4) * Config.hardware.frames :=
      Nat.mul_le_mul_left _ hf
    rw [length_places]
    exact Nat.lt_of_lt_of_le (by omega) hmul
  have hbegin := getElem?_emissions_transmission s payload ((2 * 24 + 4) * f + 2 * i + 3)
  have hend := getElem?_emissions_transmission s payload ((2 * 24 + 4) * f + 2 * i + 4)
  rw [hgap, Option.map_some] at hbegin
  rw [List.getElem?_eq_getElem hlt, Option.map_some, List.take_add_one, hgap, Option.toList_some,
    List.map_append, List.sum_append, List.map_singleton, List.sum_singleton,
    dur_bitGap payload f hi] at hend
  refine ⟨_, _, gapTicks_of_getElem? hbegin hend, rfl, ?_⟩
  obtain ⟨-, hgaps, -⟩ := Config.hardware_bounds
  rw [Nat.add_sub_cancel_left]
  split
  next hbit => simp [hbit]
  next hbit => simp [hbit, hgaps.ne]

end Sys2Proof.Machine
end

section
/-!
PROOFS, family 41_fixed_decoder.md. What the fixed-width decoder does with one byte in each of its states
(R130, R131), as equations, and what that makes `FIX_RX` do; from these O30, and O31 from the frame's value.
-/
namespace Sys2Proof.Machine

/-! ### One byte, state by state -/

section Receive
variable {p : Params} {d : FixDecoder}

/-- In `FX_IDLE` only `FX_MAGIC1` is taken (41_fixed_decoder.md R132). -/
theorem FixDecoder.receive_of_idle (hst : d.st = .idle) (byte : Byte) :
    d.receive p byte =
      if byte = p.fxMagic1 then (⟨.sawM1, d.acc⟩, .quiet) else (d, .quiet) := by
  rw [FixDecoder.receive, hst]

/-- In `FX_SAW_M1` any byte but `FX_MAGIC2` is a framing error (41_fixed_decoder.md R132). -/
theorem FixDecoder.receive_of_sawM1 (hst : d.st = .sawM1) (byte : Byte) :
    d.receive p byte =
      if byte = p.fxMagic2 then (⟨.sawM2, d.acc⟩, .quiet) else (⟨.idle, d.acc⟩, .framingError) := by
  rw [FixDecoder.receive, hst]

/-- Data byte 0 replaces the accumulator (41_fixed_decoder.md R133). -/
theorem FixDecoder.receive_of_sawM2 (hst : d.st = .sawM2) (byte : Byte) :
    d.receive p byte = (⟨.acc0, zext32 byte⟩, .quiet) := by
  rw [FixDecoder.receive, hst]

/-- Data byte 1 is placed above byte 0 (41_fixed_decoder.md R133). -/
theorem FixDecoder.receive_of_acc0 (hst : d.st = .acc0) (byte : Byte) :
    d.receive p byte = (⟨.acc1, placeByte d.acc 1 byte⟩, .quiet) := by
  rw [FixDecoder.receive, hst]

/-- Data byte 2 is placed above byte 1 (41_fixed_decoder.md R133). -/
theorem FixDecoder.receive_of_acc1 (hst : d.st = .acc1) (byte : Byte) :
    d.receive p byte = (⟨.acc2, placeByte d.acc 2 byte⟩, .quiet) := by
  rw [FixDecoder.receive, hst]

/-- Data byte 3 completes the value, which is reported (41_fixed_decoder.md R133). -/
theorem FixDecoder.receive_of_acc2 (hst : d.st = .acc2) (byte : Byte) :
    d.receive p byte =
      (⟨.idle, placeByte d.acc 3 byte⟩, .value (placeByte d.acc 3 byte)) := by
  rw [FixDecoder.receive, hst]

end Receive

/-! ### The command -/

/-- What `FIX_RX` does to the state, given what the byte does to the decoder. -/
theorem exec_fixRx_of_receive {s : State} {byte : Byte} {d : FixDecoder} {x : RxResult}
    (h : s.fx.receive Config.hardware byte = (d, x)) :
    exec (.fixRx byte) s =
      .next { s with fx := d, resp := (Response.accepted 0x3#4).report x } := by
  rw [exec_fixRx, h]

/-- The same for a byte on which the decoder branches. -/
theorem exec_fixRx_of_receive_ite {s : State} {byte : Byte} {c : Prop} [Decidable c]
    {d d' : FixDecoder} {x x' : RxResult}
    (h : s.fx.receive Config.hardware byte = if c then (d, x) else (d', x')) :
    exec (.fixRx byte) s = .next (if c then
      { s with fx := d, resp := (Response.accepted 0x3#4).report x }
    else { s with fx := d', resp := (Response.accepted 0x3#4).report x' }) := by
  split
  next hc => exact exec_fixRx_of_receive (h.trans (if_pos hc))
  next hc => exact exec_fixRx_of_receive (h.trans (if_neg hc))

/-- Settles O30: one equation of the decoder for each state; those that wait for a magic byte branch on it. -/
theorem fixRxFollowsItsTable : Obligations.FixRxFollowsItsTable := fun _ b =>
  ⟨fun hidle => exec_fixRx_of_receive_ite (FixDecoder.receive_of_idle hidle b),
    fun hsawM1 => exec_fixRx_of_receive_ite (FixDecoder.receive_of_sawM1 hsawM1 b),
    fun hsawM2 => exec_fixRx_of_receive (FixDecoder.receive_of_sawM2 hsawM2 b),
    fun hacc0 => exec_fixRx_of_receive (FixDecoder.receive_of_acc0 hacc0 b),
    fun hacc1 => exec_fixRx_of_receive (FixDecoder.receive_of_acc1 hacc1 b),
    fun hacc2 => exec_fixRx_of_receive (FixDecoder.receive_of_acc2 hacc2 b)⟩

/-- Settles O31: a frame's value is the little-endian one of its data bytes (`fixValue_toNat`). -/
theorem fixedFrameRoundTrip : Obligations.FixedFrameRoundTrip := by
  intro s b0 b1 b2 b3 hidle
  obtain ⟨t, ht, hst, hyield⟩ := execAll_fixFrame hidle b0 b1 b2 b3
  exact ⟨t, fixValue b0 b1 b2 b3, ht, hst, hyield, fixValue_toNat b0 b1 b2 b3⟩

end Sys2Proof.Machine
end

section
/-!
PROOFS, family 42_cont_decoder.md. What the continuation decoder does with one byte in each of its states
(R150, R151), as equations, and what that makes `CONT_RX` do; the value that data bytes leave in the
accumulator (R154), and a value's own data bytes as a frame (R157); from these O34, O35, O36 and O37.
-/
namespace Sys2Proof.Machine

/-! ### One byte, state by state -/

section Receive
variable {p : Params} {d : ContDecoder}

/-- In `CT_BEGIN` any byte but `CT_BEGIN_BYTE` is a framing error (42_cont_decoder.md R150). -/
theorem ContDecoder.receive_of_begin (hst : d.st = .begin) (byte : Byte) :
    d.receive p byte =
      if byte = p.ctBeginByte then (⟨.magicSeen, d.acc⟩, .quiet) else (d, .framingError) := by
  rw [ContDecoder.receive, hst]

/-- In `CT_MAGIC_SEEN` `CT_CONFIRM_BYTE` clears the accumulator, and any other byte is a framing error
(42_cont_decoder.md R150). -/
theorem ContDecoder.receive_of_magicSeen (hst : d.st = .magicSeen) (byte : Byte) :
    d.receive p byte =
      if byte = p.ctConfirmByte then (⟨.receiving, 0#32⟩, .quiet)
      else (⟨.begin, d.acc⟩, .framingError) := by
  rw [ContDecoder.receive, hst]

/-- In `CT_RECEIVING` a data byte is folded in, `CT_END_BYTE` yields the value, and any other byte is a
framing error (42_cont_decoder.md R150). -/
theorem ContDecoder.receive_of_receiving (hst : d.st = .receiving) (byte : Byte) :
    d.receive p byte =
      if 128 ≤ byte.toNat then (⟨.receiving, foldChunk d.acc byte⟩, .quiet)
      else if byte = p.ctEndByte then (⟨.begin, d.acc⟩, .value d.acc)
      else (⟨.begin, d.acc⟩, .framingError) := by
  simp only [ContDecoder.receive, hst, isDataByte_iff]

/-- `CT_END_BYTE` in `CT_RECEIVING` yields the value (42_cont_decoder.md R151). -/
theorem ContDecoder.receive_ctEndByte (hst : d.st = .receiving) :
    d.receive Config.hardware Config.hardware.ctEndByte = (⟨.begin, d.acc⟩, .value d.acc) := by
  rw [ContDecoder.receive_of_receiving hst, if_neg (by decide), if_pos rfl]

/-- `CT_END_BYTE` leads to `CT_BEGIN` from every state: it is neither of the bytes that lead on
(42_cont_decoder.md R159). -/
theorem ContDecoder.receive_ctEndByte_st (d : ContDecoder) :
    (d.receive Config.hardware Config.hardware.ctEndByte).1.st = .begin := by
  cases hst : d.st with
  | begin => rw [ContDecoder.receive_of_begin hst, if_neg (by decide), hst]
  | magicSeen => rw [ContDecoder.receive_of_magicSeen hst, if_neg (by decide)]
  | receiving => rw [ContDecoder.receive_ctEndByte hst]

/-- The two magic bytes lead from `CT_BEGIN` to `CT_RECEIVING` with a clear accumulator
(42_cont_decoder.md R150). -/
theorem ContDecoder.receive_magicBytes (hst : d.st = .begin) :
    d.receive p p.ctBeginByte = (⟨.magicSeen, d.acc⟩, .quiet) ∧
      (⟨.magicSeen, d.acc⟩ : ContDecoder).receive p p.ctConfirmByte =
        (⟨.receiving, 0#32⟩, .quiet) :=
  ⟨(ContDecoder.receive_of_begin hst _).trans (if_pos rfl),
    (ContDecoder.receive_of_magicSeen rfl _).trans (if_pos rfl)⟩

end Receive

/-! ### The command -/

/-- The state after a `CONT_RX` whose byte gave the decoder `r.1` and the report `r.2`
(42_cont_decoder.md R151). -/
def State.afterContRx (s : State) (r : ContDecoder × RxResult) : State :=
  { s with ct := r.1, resp := (Response.accepted 0x4#4).report r.2 }

@[simp] theorem State.afterContRx_ct (s : State) (r : ContDecoder × RxResult) :
    (s.afterContRx r).ct = r.1 := rfl

@[simp] theorem State.afterContRx_yielded (s : State) (r : ContDecoder × RxResult) :
    (s.afterContRx r).resp.yielded = r.2.value? :=
  Response.yielded_report _ _

/-- What `CONT_RX` does to the state, as one function of what the byte does to the decoder. -/
theorem exec_contRx_eq_afterContRx (byte : Byte) (s : State) :
    exec (.contRx byte) s = .next (s.afterContRx (s.ct.receive Config.hardware byte)) := rfl

/-- The data fold with the chunk as the byte masked (42_cont_decoder.md R154). -/
theorem foldChunk_eq_and (acc : Word) (byte : Byte) :
    foldChunk acc byte = acc <<< 7 ||| (byte &&& 0x7F#8).setWidth 32 := by
  have hmask : zext32 (chunk byte) = (byte &&& 0x7F#8).setWidth 32 := by
    apply BitVec.eq_of_toNat_eq
    rw [zext32, BitVec.toNat_setWidth_of_le (by decide), BitVec.toNat_setWidth_of_le (by decide),
      chunk_toNat, BitVec.toNat_and]
    exact (Nat.and_two_pow_sub_one_eq_mod byte.toNat 7).symm
  rw [foldChunk, hmask]

/-- Settles O34: one equation of the decoder for each state, its branches carried over to the states they
leave. -/
theorem contRxFollowsItsTable : Obligations.ContRxFollowsItsTable := by
  intro s b
  refine ⟨fun hbegin => ?_, fun hmagicSeen => ?_, fun hreceiving => ?_⟩ <;>
    rw [exec_contRx_eq_afterContRx]
  · rw [ContDecoder.receive_of_begin hbegin, apply_ite s.afterContRx]
    rfl
  · rw [ContDecoder.receive_of_magicSeen hmagicSeen, apply_ite s.afterContRx]
    rfl
  · rw [ContDecoder.receive_of_receiving hreceiving, apply_ite s.afterContRx,
      apply_ite s.afterContRx, foldChunk_eq_and]
    rfl

/-! ### Data bytes -/

/-- Data bytes in `CT_RECEIVING` are folded into the accumulator one after the other, and none of them
yields a value (42_cont_decoder.md R154). -/
theorem execAll_dataBytes {ds : List Byte} (hds : ∀ d ∈ ds, 128 ≤ d.toNat) {s : State}
    (hst : s.ct.st = .receiving) :
    ∃ t, execAll (ds.map Instr.contRx) s = .next t ∧
      t.ct = ⟨.receiving, ds.foldl foldChunk s.ct.acc⟩ ∧
      (responses (ds.map Instr.contRx) s).map Response.yielded = List.replicate ds.length none := by
  induction ds generalizing s with
  | nil => exact ⟨s, rfl, by rw [← hst]; rfl, rfl⟩
  | cons d ds ih =>
    obtain ⟨hd, hds⟩ := List.forall_mem_cons.mp hds
    have hexec := exec_contRx_eq_afterContRx d s
    rw [ContDecoder.receive_of_receiving hst, if_pos hd] at hexec
    obtain ⟨t, ht, hct, hyield⟩ :=
      ih hds (s := s.afterContRx (⟨.receiving, foldChunk s.ct.acc d⟩, .quiet)) rfl
    refine ⟨t, (execAll_cons_of_next _ hexec).trans ht, hct, ?_⟩
    rw [List.map_cons, responses_cons_of_next _ hexec, List.map_cons, hyield,
      State.afterContRx_yielded]
    rfl

/-- A number followed by the 7-bit chunk of a data byte, without a bound on its width
(42_cont_decoder.md R154). -/
def appendChunk (n : Nat) (byte : Byte) : Nat := n * 128 + byte.toNat % 128

/-- The accumulator holds the low 32 bits of the number so far followed by the chunks: it drops bits that
later chunks would only move further up (42_cont_decoder.md R154). -/
theorem foldl_foldChunk_toNat (ds : List Byte) {acc : Word} {n : Nat} (h : acc.toNat = n % 2 ^ 32) :
    (ds.foldl foldChunk acc).toNat = ds.foldl appendChunk n % 2 ^ 32 := by
  induction ds generalizing acc n with
  | nil => exact h
  | cons d ds ih =>
    refine ih ?_
    rw [foldChunk_toNat, h, appendChunk]
    omega

/-- Settles O35: the data bytes are folded in (`execAll_dataBytes`), modulo 2^32. -/
theorem dataBytesConcatenateModulo32Bits : Obligations.DataBytesConcatenateModulo32Bits := by
  intro s ds hst hds
  obtain ⟨t, ht, hct, -⟩ := execAll_dataBytes hds hst
  refine ⟨t, ht, by rw [hct], ?_⟩
  rw [hct]
  exact foldl_foldChunk_toNat ds (Nat.mod_eq_of_lt s.ct.acc.isLt).symm

/-! ### A frame -/

/-- The two magic bytes, from `CT_BEGIN`, clear the accumulator and yield nothing (42_cont_decoder.md
R150). -/
theorem execAll_magicBytes {s : State} (hbegin : s.ct.st = .begin) :
    ∃ t, execAll [.contRx Config.hardware.ctBeginByte, .contRx Config.hardware.ctConfirmByte] s =
        .next t ∧ t.ct = ⟨.receiving, 0#32⟩ ∧
      (responses [.contRx Config.hardware.ctBeginByte, .contRx Config.hardware.ctConfirmByte] s).map
        Response.yielded = [none, none] := by
  obtain ⟨hmagic1, hmagic2⟩ := ContDecoder.receive_magicBytes (p := Config.hardware) hbegin
  have hexec1 := exec_contRx_eq_afterContRx Config.hardware.ctBeginByte s
  rw [hmagic1] at hexec1
  have hexec2 := exec_contRx_eq_afterContRx Config.hardware.ctConfirmByte
    (s.afterContRx (⟨.magicSeen, s.ct.acc⟩, .quiet))
  rw [State.afterContRx_ct, hmagic2] at hexec2
  refine ⟨_, (execAll_cons_of_next _ hexec1).trans (execAll_cons_of_next [] hexec2), rfl, ?_⟩
  rw [responses_cons_of_next _ hexec1, responses_cons_of_next [] hexec2]
  rfl

/-- A frame from `CT_BEGIN` yields the fold of its data bytes on its last byte and nothing before, and
leaves the decoder in `CT_BEGIN` (30_encoding.md R83, 42_cont_decoder.md R151). -/
theorem execAll_contFrame {s : State} (hbegin : s.ct.st = .begin) {ds : List Byte}
    (hds : ∀ d ∈ ds, 128 ≤ d.toNat) :
    ∃ t, execAll ((contFrame Config.hardware ds).map Instr.contRx) s = .next t ∧ t.ct.st = .begin ∧
      (responses ((contFrame Config.hardware ds).map Instr.contRx) s).map Response.yielded =
        List.replicate (2 + ds.length) none ++ [some (ds.foldl foldChunk 0#32)] := by
  have hparts : (contFrame Config.hardware ds).map Instr.contRx =
      [.contRx Config.hardware.ctBeginByte, .contRx Config.hardware.ctConfirmByte] ++
        (ds.map Instr.contRx ++ [.contRx Config.hardware.ctEndByte]) := by
    simp [contFrame]
  obtain ⟨t, hmagic, hclear, hyield⟩ := execAll_magicBytes hbegin
  obtain ⟨u, hdata, hct, hyield'⟩ := execAll_dataBytes hds (s := t) (by rw [hclear])
  rw [hclear] at hct
  have hend := exec_contRx_eq_afterContRx Config.hardware.ctEndByte u
  rw [hct, ContDecoder.receive_ctEndByte rfl] at hend
  refine ⟨u.afterContRx (⟨.begin, ds.foldl foldChunk 0#32⟩, .value (ds.foldl foldChunk 0#32)),
    ?_, rfl, ?_⟩
  · rw [hparts, execAll_append_of_next _ hmagic, execAll_append_of_next _ hdata]
    exact execAll_cons_of_next [] hend
  · rw [hparts, responses_append_of_next _ hmagic, responses_append_of_next _ hdata,
      responses_cons_of_next [] hend, List.map_append, List.map_append, hyield, hyield',
      ← List.append_assoc, List.replicate_add]
    rfl

/-- The first `m` data bytes of a value carry its leading chunks (30_encoding.md R84). -/
theorem foldl_appendChunk_dataByte {v : Word} {k m : Nat} (hv : v.toNat < 2 ^ (7 * k)) (hm : m ≤ k) :
    ((List.range m).map fun j => dataByte v k (j + 1)).foldl appendChunk 0 =
      v.toNat / 2 ^ (7 * (k - m)) := by
  induction m with
  | zero => exact (Nat.div_eq_of_lt hv).symm
  | succ m ih =>
    have hdiv : v.toNat / 2 ^ (7 * (k - m)) = v.toNat / 2 ^ (7 * (k - (m + 1))) / 128 := by
      rw [Nat.div_div_eq_div_mul, show 7 * (k - m) = 7 * (k - (m + 1)) + 7 by omega, Nat.pow_add]
    rw [List.range_succ, List.map_append, List.foldl_append, ih (Nat.le_of_succ_le hm), hdiv]
    rw [List.map_singleton, List.foldl_cons, List.foldl_nil, appendChunk, dataByte_toNat]
    omega

/-- Every data byte of a value is one (30_encoding.md R84, 42_cont_decoder.md R152). -/
theorem le_toNat_of_mem_dataBytes {v : Word} {d : Byte} (hd : d ∈ dataBytes v) : 128 ≤ d.toNat := by
  obtain ⟨j, -, rfl⟩ := List.mem_map.mp hd
  rw [dataByte_toNat]
  exact Nat.le_add_right _ _

/-- A value's own data bytes fold to it: the chunk count covers it (30_encoding.md R84,
42_cont_decoder.md R157). -/
theorem foldl_foldChunk_dataBytes (v : Word) : (dataBytes v).foldl foldChunk 0#32 = v := by
  apply BitVec.eq_of_toNat_eq
  rw [foldl_foldChunk_toNat _ (n := 0) rfl, dataBytes,
    foldl_appendChunk_dataByte (lt_two_pow_chunkCount v) le_rfl, Nat.sub_self]
  exact (congrArg (· % 2 ^ 32) (Nat.div_one _)).trans (Nat.mod_eq_of_lt v.isLt)

/-- Settles O36: the line's commands are those of the frame of the value's own data bytes. -/
theorem continuationFrameRoundTrip : Obligations.ContinuationFrameRoundTrip := by
  intro s v hbegin
  obtain ⟨t, ht, hst, hyield⟩ := execAll_contFrame hbegin fun _ => le_toNat_of_mem_dataBytes (v := v)
  rw [foldl_foldChunk_dataBytes] at hyield
  exact ⟨_, t, asmCommands_of_accepted rfl, ht, hst, _, hyield⟩

/-! ### Resynchronisation -/

/-- `CT_END_BYTE`, `CT_BEGIN_BYTE`, `CT_CONFIRM_BYTE` lead any decoder to `CT_RECEIVING` with a clear
accumulator (42_cont_decoder.md R159). -/
theorem ContDecoder.receive_resynchronises (d : ContDecoder) :
    (((d.receive Config.hardware Config.hardware.ctEndByte).1.receive Config.hardware
      Config.hardware.ctBeginByte).1.receive Config.hardware Config.hardware.ctConfirmByte).1 =
      ⟨.receiving, 0#32⟩ := by
  obtain ⟨hmagic1, hmagic2⟩ :=
    ContDecoder.receive_magicBytes (p := Config.hardware) d.receive_ctEndByte_st
  rw [hmagic1, hmagic2]

/-- Settles O37: the commands to the continuation decoder are the three bytes, and these alone decide its
registers. -/
theorem threeBytesResynchroniseTheContinuationDecoder :
    Obligations.ThreeBytesResynchroniseTheContinuationDecoder := by
  intro s is0 is1 is2 hother
  obtain ⟨t, u, ht, hu, htu⟩ := execAll_unitRegisters_commandsTo (b := .contDecoder)
    (is0 ++ [.contRx Config.hardware.ctEndByte] ++ is1 ++ [.contRx Config.hardware.ctBeginByte] ++
      is2 ++ [.contRx Config.hardware.ctConfirmByte]) (s := s) rfl
  have hnone := commandsTo_eq_nil_iff.mpr hother
  simp only [commandsTo_append, List.append_eq_nil_iff] at hnone
  obtain ⟨⟨h0, h1⟩, h2⟩ := hnone
  simp only [commandsTo_append, h0, h1, h2] at hu
  have hthree : execAll [.contRx Config.hardware.ctEndByte, .contRx Config.hardware.ctBeginByte,
      .contRx Config.hardware.ctConfirmByte] s = .next u := hu
  cases hthree
  exact ⟨t, ht, htu.trans s.ct.receive_resynchronises⟩

end Sys2Proof.Machine
end

section
/-!
PROOFS, family 43_control.md: `NOP` (R170) and illegal words (R171, 60_exceptions.md R181). What accepting
a word does is said once for a legal and once for an illegal word; from these O5, O16 and O43.
-/
namespace Sys2Proof.Machine

/-! ### One word -/

/-- Accepting a legal word applies its command (30_encoding.md R70). -/
theorem accept_of_legal {w : Word} {i : Instr} (h : decode w = .ok i) (s : State) :
    accept w s = exec i s := by
  simp only [accept, h]

/-- Accepting an illegal word only reports it (43_control.md R171). -/
theorem accept_of_illegal {w : Word} {e : Illegal} (h : decode w = .error e) (s : State) :
    accept w s = .next (s.illegalCommand w) := by
  simp only [accept, h]

/-- A step on an offered word, legal or not, accepts it in the state that has consumed the sample
(30_encoding.md R70). -/
theorem step_of_offered_word {s : State} {w : Word} {rest : List PortIn}
    (hin : s.inputs = PortIn.offer w :: rest) : step s = accept w { s with inputs := rest } := by
  rw [step_eq, State.sample_of_inputs hin, State.consume_of_inputs hin]
  rfl

/-- Settles O16: `exec_nop`, with the plain response of an accepted command written out. -/
theorem nopOnlyResponds : Obligations.NopOnlyResponds := exec_nop

/-- Settles O5: the offered word is accepted, and accepting an illegal word only reports it. -/
theorem illegalWordOnlyReported : Obligations.IllegalWordOnlyReported :=
  fun _ _ _ _ hin hdec => (step_of_offered_word hin).trans (accept_of_illegal hdec _)

/-! ### The registers over a word -/

/-- The words without effect are `NOP` and the illegal ones (43_control.md R170, R171). -/
theorem hasEffect_eq_false_iff {w : Word} :
    hasEffect w = false ↔ decode w = .ok .nop ∨ ∃ e, decode w = .error e := by
  unfold hasEffect
  cases decode w with
  | ok i => cases i <;> simp
  | error e => simp

/-- A word without effect is accepted and changes no register (43_control.md R170, R171). -/
theorem accept_keeps_registers {w : Word} (hw : hasEffect w = false) (s : State) :
    ∃ t, accept w s = .next t ∧ t.registers = s.registers := by
  rcases hasEffect_eq_false_iff.mp hw with hnop | ⟨e, hill⟩
  · exact ⟨_, (accept_of_legal hnop s).trans (exec_nop s), rfl⟩
  · exact ⟨_, accept_of_illegal hill s, rfl⟩

/-- A command makes the same registers of the same registers: each unit's are either decided by those it
had or kept (10_state.md R22). -/
theorem exec_determines_registers (i : Instr) {s s' : State} (hs : s.registers = s'.registers) :
    ∃ t t', exec i s = .next t ∧ exec i s' = .next t' ∧ t.registers = t'.registers := by
  obtain ⟨t, ht⟩ := exec_completes i s
  obtain ⟨t', ht'⟩ := exec_completes i s'
  refine ⟨t, t', ht, ht', State.registers_eq_iff.mpr fun b => ?_⟩
  have hunit := State.registers_eq_iff.mp hs b
  by_cases hi : unitOf i = some b
  · exact exec_determines_unitRegisters hi hunit ht ht'
  · rw [exec_keeps_unitRegisters hi ht, exec_keeps_unitRegisters hi ht', hunit]

/-- Accepting a word, legal or not, makes the same registers of the same registers. -/
theorem accept_determines_registers (w : Word) {s s' : State} (hs : s.registers = s'.registers) :
    ∃ t t', accept w s = .next t ∧ accept w s' = .next t' ∧ t.registers = t'.registers := by
  cases hdec : decode w with
  | ok i =>
    rw [accept_of_legal hdec, accept_of_legal hdec]
    exact exec_determines_registers i hs
  | error e => exact ⟨_, _, accept_of_illegal hdec s, accept_of_illegal hdec s', hs⟩

/-! ### A stream of words -/

/-- The first word of a stream, then the rest. -/
theorem acceptAll_cons_of_next {w : Word} {s t : State} (ws : List Word) (h : accept w s = .next t) :
    acceptAll (w :: ws) s = acceptAll ws t := by
  simp only [acceptAll, h]

/-- A stream and its words with effect, from states with the same registers, end with the same
registers: a word left out has kept those of the longer run. -/
theorem acceptAll_filter_hasEffect (ws : List Word) {s s' : State} (hs : s.registers = s'.registers) :
    ∃ t u, acceptAll ws s = .next t ∧ acceptAll (ws.filter hasEffect) s' = .next u ∧
      t.registers = u.registers := by
  induction ws generalizing s s' with
  | nil => exact ⟨s, s', rfl, rfl, hs⟩
  | cons w ws ih =>
    cases hw : hasEffect w with
    | false =>
      obtain ⟨v, hv, hkeep⟩ := accept_keeps_registers hw s
      rw [acceptAll_cons_of_next ws hv, List.filter_cons_of_neg (by simp [hw])]
      exact ih (hkeep.trans hs)
    | true =>
      obtain ⟨v, v', hv, hv', hvv'⟩ := accept_determines_registers w hs
      rw [acceptAll_cons_of_next ws hv, List.filter_cons_of_pos hw, acceptAll_cons_of_next _ hv']
      exact ih hvv'

/-- Settles O43: both streams start in the same state. -/
theorem illegalWordsAndNopsAreTransparent : Obligations.IllegalWordsAndNopsAreTransparent :=
  fun ws _ => acceptAll_filter_hasEffect ws rfl

end Sys2Proof.Machine
end

section
/-!
PROOFS, family 60_exceptions.md: no step stops the machine (R182), and which bytes make a decoder report a
framing error, with its recovery in the same command (R180); from these O7 and O38.
-/
namespace Sys2Proof.Machine

/-! ### Every step completes -/

/-- An edge resets, does nothing, applies a command or reports an illegal word; each completes
(60_exceptions.md R181, R182). -/
theorem clockEdge_completes (q : PortIn) (s : State) : ∃ t, clockEdge q s = .next t := by
  rcases clockEdge_cases q s with
    ⟨-, hedge⟩ | ⟨-, -, hedge⟩ | ⟨-, -, i, -, hedge⟩ | ⟨-, -, e, -, hedge⟩
  · exact ⟨_, hedge⟩
  · exact ⟨_, hedge⟩
  · rw [hedge]
    exact exec_completes i s
  · exact ⟨_, hedge⟩

/-- A step ends in a next state from every state (60_exceptions.md R182). -/
theorem step_completes (s : State) : ∃ t, step s = .next t :=
  clockEdge_completes s.sample s.consume

/-- Settles O7, by induction on the number of steps: the first one leads to a state from which the rest
complete. -/
theorem everyRunCompletes : Obligations.EveryRunCompletes := by
  intro n
  induction n with
  | zero => exact fun s => ⟨s, rfl⟩
  | succ n ih =>
    intro s
    obtain ⟨s', hs'⟩ := step_completes s
    rw [run_succ_of_next n hs']
    exact ih s'

/-! ### Framing errors of the decoders -/

section Receive
variable {p : Params}

/-- The fixed-width decoder reports a framing error exactly for a byte that breaks off its magic
(60_exceptions.md R180). -/
theorem FixDecoder.receive_framingError_iff (d : FixDecoder) (byte : Byte) :
    (d.receive p byte).2 = .framingError ↔ d.st = .sawM1 ∧ byte ≠ p.fxMagic2 := by
  cases hst : d.st with
  | idle =>
    rw [FixDecoder.receive_of_idle hst]
    split <;> simp
  | sawM1 =>
    rw [FixDecoder.receive_of_sawM1 hst]
    split <;> simp [*]
  | sawM2 => simp [FixDecoder.receive_of_sawM2 hst]
  | acc0 => simp [FixDecoder.receive_of_acc0 hst]
  | acc1 => simp [FixDecoder.receive_of_acc1 hst]
  | acc2 => simp [FixDecoder.receive_of_acc2 hst]

/-- After a framing error the fixed-width decoder is in its initial state (60_exceptions.md R180). -/
theorem FixDecoder.receive_recovers {d : FixDecoder} {byte : Byte}
    (h : (d.receive p byte).2 = .framingError) : (d.receive p byte).1.st = .idle := by
  obtain ⟨hst, hb⟩ := (d.receive_framingError_iff byte).mp h
  rw [FixDecoder.receive_of_sawM1 hst, if_neg hb]

/-- The continuation decoder reports a framing error exactly for a byte of the wrong class for its state
(60_exceptions.md R180). -/
theorem ContDecoder.receive_framingError_iff (d : ContDecoder) (byte : Byte) :
    (d.receive p byte).2 = .framingError ↔
      (d.st = .begin ∧ byte ≠ p.ctBeginByte) ∨
      (d.st = .magicSeen ∧ byte ≠ p.ctConfirmByte) ∨
      (d.st = .receiving ∧ byte.toNat < 128 ∧ byte ≠ p.ctEndByte) := by
  cases hst : d.st with
  | begin =>
    rw [ContDecoder.receive_of_begin hst]
    split <;> simp [*]
  | magicSeen =>
    rw [ContDecoder.receive_of_magicSeen hst]
    split <;> simp [*]
  | receiving =>
    rw [ContDecoder.receive_of_receiving hst, ← Nat.not_le]
    split
    next hdata => simp [hdata]
    next hdata => split <;> simp [*]

/-- After a framing error the continuation decoder is in its initial state (60_exceptions.md R180). -/
theorem ContDecoder.receive_recovers {d : ContDecoder} {byte : Byte}
    (h : (d.receive p byte).2 = .framingError) : (d.receive p byte).1.st = .begin := by
  rcases (d.receive_framingError_iff byte).mp h with ⟨hst, hb⟩ | ⟨hst, hb⟩ | ⟨hst, hdata, hb⟩
  · rw [ContDecoder.receive_of_begin hst, if_neg hb, hst]
  · rw [ContDecoder.receive_of_magicSeen hst, if_neg hb]
  · rw [ContDecoder.receive_of_receiving hst, if_neg (Nat.not_le.mpr hdata), if_neg hb]

end Receive

/-! ### Framing errors of the commands -/

/-- The response to a byte carries a framing error exactly when the decoder reports one. -/
theorem Response.report_framingError_iff (op : Op) (x : RxResult) :
    ((Response.accepted op).report x).framingError = true ↔ x = .framingError := by
  cases x <;> simp

/-- An encoder operation's response carries no framing error. -/
@[simp] theorem Response.emitLevel?_keeps_framingError (r : Response) (l? : Option Bool) :
    (r.emitLevel? l?).framingError = r.framingError := by
  cases l? <;> rfl

/-- Only the decoders' commands can report a framing error (60_exceptions.md R180). -/
theorem exec_framingError_of_no_decoder {i : Instr} {s t : State}
    (hi : unitOf i = none ∨ unitOf i = some .encoder) (h : exec i s = .next t) :
    t.resp.framingError = false := by
  cases i with
  | nop => cases h; rfl
  | encSet payload => cases h; rfl
  | encTick => cases h; exact Response.emitLevel?_keeps_framingError _ _
  | fixRx | contRx => exact absurd hi (by simp [unitOf])

/-- Settles O38: a decoder command's response carries what its decoder reports for the byte, and the
decoder recovers from what it reports. -/
theorem framingErrorsExactlyAndRecovered : Obligations.FramingErrorsExactlyAndRecovered := by
  refine fun s t => ⟨fun b h => ?_, fun b h => ?_, fun i => exec_framingError_of_no_decoder⟩
  · rw [exec_fixRx] at h
    cases h
    have hreport := Response.report_framingError_iff 0x3#4 (s.fx.receive Config.hardware b).2
    exact ⟨hreport.trans (s.fx.receive_framingError_iff b),
      fun herr => FixDecoder.receive_recovers (hreport.mp herr)⟩
  · rw [exec_contRx] at h
    cases h
    have hreport := Response.report_framingError_iff 0x4#4 (s.ct.receive Config.hardware b).2
    exact ⟨hreport.trans (s.ct.receive_framingError_iff b),
      fun herr => ContDecoder.receive_recovers (hreport.mp herr)⟩

end Sys2Proof.Machine
end

section
/-!
PROOFS, family 70_reset_and_hazards.md: edges with `rst = 1` (R200). The first one forgets the state it finds;
the later ones find the reset state and keep it. From this O2.
-/
namespace Sys2Proof.Machine

/-- An edge with `rst = 1` leaves of the state it finds only the host's later inputs, whatever stands on
`cmd_valid` and `cmd` (70_reset_and_hazards.md R200). -/
theorem step_of_rst {s : State} {q : PortIn} {rest : List PortIn} (hin : s.inputs = q :: rest)
    (hrst : q.rst = true) : step s = .next { State.reset with inputs := rest } := by
  rw [step_eq, State.sample_of_inputs hin, State.consume_of_inputs hin]
  simp [clockEdge, State.resetEdge, hrst]

/-- In the reset state, edges with `rst = 1` only consume their samples. -/
theorem run_rst_of_reset (ps rest : List PortIn) (hrst : ∀ p ∈ ps, p.rst = true) :
    Sys2Proof.core.run ps.length { State.reset with inputs := ps ++ rest } =
      .next { State.reset with inputs := rest } := by
  induction ps with
  | nil => rfl
  | cons q ps ih =>
    obtain ⟨hq, htail⟩ := List.forall_mem_cons.mp hrst
    rw [List.length_cons, run_succ_of_next _ (step_of_rst rfl hq)]
    exact ih htail

/-- The ports right after reset, where the phase is `IDLE` and the response silent (10_state.md R34,
R42). -/
theorem State.outputs_reset (inputs : List PortIn) :
    ({ State.reset with inputs := inputs } : State).outputs = ⟨false, true, Response.silent⟩ := rfl

/-- Settles O2: the first edge reaches the reset state from any state, the others keep it. -/
theorem resetEdgesGiveResetState : Obligations.ResetEdgesGiveResetState := by
  intro s ps rest hne hrst hin
  refine ⟨?_, State.outputs_reset rest⟩
  cases ps with
  | nil => exact absurd rfl hne
  | cons q ps =>
    obtain ⟨hq, htail⟩ := List.forall_mem_cons.mp hrst
    rw [List.length_cons, run_succ_of_next _ (step_of_rst hin hq)]
    exact run_rst_of_reset ps rest htail

end Sys2Proof.Machine
end
